-- ==== Sys2Proof/Word.lean ====
section
/-! DEFINITION. The words of base32_bit_packer: bytes, quanta, command words, response words, and the
rounded-up quotient of spec rule R8. -/

namespace Sys2Proof

/-- An 8-bit value: a byte of a message or the code of a symbol (R6, R32, R65). -/
abbrev Byte := BitVec 8

/-- A 5-bit value, `0 .. 31` (R6, R70). -/
abbrev Quantum := BitVec 5

/-- A 12-bit command word, `opc` in bits 11:8 and `imm8` in bits 7:0 (R47). -/
abbrev CmdWord := BitVec 12

/-- A 10-bit response word, `code` in bits 9:8 and `data` in bits 7:0 (R49). -/
abbrev RspWord := BitVec 10

/-- `ceil(a/b)`, the least natural `>= a/b` (R8); `b` is never zero in the spec. -/
def ceilDiv (a b : Nat) : Nat := (a + (b - 1)) / b

end Sys2Proof
end

