-- ==== Sys2Proof/Syntax.lean ====
section
/-! DEFINITION. The nine commands of the block (spec rule R51), one constructor per row of
spec/opcode_table.json. -/

namespace Sys2Proof

/-- A command. Only `PUSH` carries an operand, its 8-bit immediate, of which every value is legal (R48). -/
inductive Instr where
  /-- `NOP` (R100). -/
  | nop
  /-- `PUSH imm8` (R101). -/
  | push (imm8 : Byte)
  /-- `POP` (R102). -/
  | pop
  /-- `STAT` (R103). -/
  | stat
  /-- `CLR` (R104). -/
  | clr
  /-- `ENC` (R90). -/
  | enc
  /-- `DEC` (R96). -/
  | dec
  /-- `ENCR` (R91). -/
  | encr
  /-- `DECR` (R97). -/
  | decr
  deriving DecidableEq, Repr

/-- The two bit-order policies (R70). -/
inductive Policy where
  /-- One big-endian bit string cut from the front (R33, R71). -/
  | standard
  /-- 5-byte blocks cut from the low-order end (R34, R77). -/
  | rspamd
  deriving DecidableEq, Repr

end Sys2Proof
end

