-- ==== Sys2Proof/Decode.lean ====
section
/-! DEFINITION. The command word: its fields, the decoder of spec rule R53 (total, rejecting by name), the
opcode table of R51, and the encoder. -/

namespace Sys2Proof

/-- `opc = cmd[11:8]` (R47). -/
def opcField (w : CmdWord) : BitVec 4 := w.extractLsb' 8 4

/-- `imm8 = cmd[7:0]` (R47). -/
def immField (w : CmdWord) : Byte := w.extractLsb' 0 8

/-- Why a command word is reserved (R52). -/
inductive ReservedWord where
  /-- `opc` is one of `0x5, 0x6, 0x7, 0xC, 0xD, 0xE, 0xF`: assigned to no command. -/
  | unassignedOpcode (opc : BitVec 4)
  /-- `opc` is a command's other than `PUSH` and `imm8` is not `0x00`. -/
  | strayImmediate (opc : BitVec 4) (imm8 : Byte)
  deriving DecidableEq, Repr

/-- The command without operand that `opc` names, if any (R51). -/
def commandOfOpc (opc : BitVec 4) : Option Instr :=
  if opc = 0x0#4 then some .nop
  else if opc = 0x2#4 then some .pop
  else if opc = 0x3#4 then some .stat
  else if opc = 0x4#4 then some .clr
  else if opc = 0x8#4 then some .enc
  else if opc = 0x9#4 then some .dec
  else if opc = 0xA#4 then some .encr
  else if opc = 0xB#4 then some .decr
  else none

/-- The decoder (R53): by the word alone, in no state. -/
def decode (w : CmdWord) : Except ReservedWord Instr :=
  if opcField w = 0x1#4 then .ok (.push (immField w))
  else
    match commandOfOpc (opcField w) with
    | none => .error (.unassignedOpcode (opcField w))
    | some i =>
      if immField w = 0x00#8 then .ok i
      else .error (.strayImmediate (opcField w) (immField w))

/-- One row of the opcode table (R51): a word `w` selects the row when `w &&& mask = pattern`. -/
structure OpcodeRow where
  mnemonic : String
  pattern : CmdWord
  mask : CmdWord
  deriving DecidableEq, Repr

/-- Does the word select the row (R51)? -/
def OpcodeRow.selects (r : OpcodeRow) (w : CmdWord) : Bool := w &&& r.mask == r.pattern

/-- The opcode table as R51 prints it. -/
def opcodeTable : List OpcodeRow :=
  [ ⟨"NOP",  0x000#12, 0xFFF#12⟩,
    ⟨"PUSH", 0x100#12, 0xF00#12⟩,
    ⟨"POP",  0x200#12, 0xFFF#12⟩,
    ⟨"STAT", 0x300#12, 0xFFF#12⟩,
    ⟨"CLR",  0x400#12, 0xFFF#12⟩,
    ⟨"ENC",  0x800#12, 0xFFF#12⟩,
    ⟨"DEC",  0x900#12, 0xFFF#12⟩,
    ⟨"ENCR", 0xA00#12, 0xFFF#12⟩,
    ⟨"DECR", 0xB00#12, 0xFFF#12⟩ ]

/-- A word is reserved when it matches no row of the table (R52). -/
def isReserved (w : CmdWord) : Bool := !opcodeTable.any (·.selects w)

/-- `{opc, imm8}` (R47). -/
def mkWord (opc : BitVec 4) (imm8 : Byte) : CmdWord := opc ++ imm8

/-- The command word of a command (R51). -/
def encode : Instr → CmdWord
  | .nop => mkWord 0x0#4 0x00#8
  | .push imm8 => mkWord 0x1#4 imm8
  | .pop => mkWord 0x2#4 0x00#8
  | .stat => mkWord 0x3#4 0x00#8
  | .clr => mkWord 0x4#4 0x00#8
  | .enc => mkWord 0x8#4 0x00#8
  | .dec => mkWord 0x9#4 0x00#8
  | .encr => mkWord 0xA#4 0x00#8
  | .decr => mkWord 0xB#4 0x00#8

/-- The command word that an opcode-table number stands for: the number's low `nbits` bits, if they fit the 12
bits of the command port (R45, R47); a number with a bit above bit 11 is no command word (log 10). -/
def tableWord (nbits w : Nat) : Option CmdWord :=
  if w % 2 ^ nbits < 2 ^ 12 then some (BitVec.ofNat 12 (w % 2 ^ nbits)) else none

/-- The command that the decoder reads from a word numbered as spec/opcode_table.json numbers it. -/
def decodeTableWord (nbits w : Nat) : Option Instr :=
  match tableWord nbits w with
  | none => none
  | some c => (decode c).toOption

end Sys2Proof
end

