-- ==== Sys2Proof/Config.lean ====
section
/-! DEFINITION. The parameters of an instance of the block (spec rule R6): the one open parameter
`IBUF_DEPTH`, what is derived from it, and what is fixed. -/

namespace Sys2Proof

/-- The open parameter of an instance (R6, D7, P1). A step never changes it. -/
structure Config where
  /-- `IBUF_DEPTH`: the number of 8-bit entries of the input buffer, a natural `>= 1`. -/
  ibufDepth : Nat
  deriving DecidableEq, Repr

namespace Config

/-- `OBUF_DEPTH = ceil(8 * IBUF_DEPTH / 5)` (R6): derived, not free. -/
def obufDepth (c : Config) : Nat := ceilDiv (8 * c.ibufDepth) 5

/-- The least `w` with `2^w > n` (R6). -/
def leastWidth (n : Nat) : Nat := ((List.range (n + 1)).find? (fun w => decide (n < 2 ^ w))).getD n

/-- `ILEN_W`, the width of `ILEN` (R6). -/
def ilenW (c : Config) : Nat := leastWidth c.ibufDepth

/-- `OLEN_W`, the width of `OLEN` and of `OPTR` (R6). -/
def olenW (c : Config) : Nat := leastWidth c.obufDepth

/-- DESIGN CHOICE (log 2, unsafe if a claim rests on it): the depth of the one instance whose reset state is
`State.reset`. The spec leaves `IBUF_DEPTH` open; 16 is the depth its test vectors assume. No statement rests
on it: they speak of every `Config`. -/
def chosen : Config := { ibufDepth := 16 }

end Config

end Sys2Proof
end

