-- ==== Sys2Proof/Machine/State.lean ====
section
/-! DEFINITION. The state of the block, the host's drive of its ports, and why a step can stop. -/

namespace Sys2Proof.Machine

/-- The three storage spaces (spec rule R30); an address is a space and an index (R8). -/
inductive Space where
  /-- The input buffer `IBUF`. -/
  | ibuf
  /-- The output buffer `OBUF`. -/
  | obuf
  /-- The alphabet table `ROM`. -/
  | rom
  deriving DecidableEq, Repr

/-- What the machine stops with. The spec has no such outcome in a reachable state (R46, R113): both constructors
can be raised only in states that break R14, and stopping there is safe (log 7). -/
inductive Fault where
  /-- A write to an entry the space does not have: raised by `PUSH` when `ILEN > IBUF_DEPTH`, and by a run command
  whose result is longer than `OBUF_DEPTH`. DESIGN CHOICE, safe. -/
  | noSuchEntry (space : Space) (index : Nat)
  /-- A read of an entry that is not valid and so holds no value (R13): raised by `POP` when `OPTR > OLEN`.
  DESIGN CHOICE, safe. -/
  | entryNotValid (space : Space) (index : Nat)
  deriving DecidableEq, Repr

/-- A command to which the model gives no meaning. Not the block's response `REFUSED`, which is a next state
(R112). Every command has a meaning, so no step answers with it. Safe. -/
inductive Refusal where
  /-- Raised by an arm of `exec` that has no meaning yet; there is none. Safe. -/
  | notModelled (mnemonic : String)
  deriving DecidableEq, Repr

/-- The input ports at one rising edge of `clk` (R45). -/
structure Edge where
  /-- `rst`: synchronous reset, active high (R130). -/
  rst : Bool
  /-- `cmd_valid`: the host offers a command word on `cmd`. -/
  cmdValid : Bool
  /-- `cmd`: the command word. -/
  cmd : CmdWord
  /-- `rsp_ready`: the host can take a response word. -/
  rspReady : Bool
  deriving DecidableEq, Repr

namespace Edge

/-- The host offers a command word. -/
def offer (w : CmdWord) : Edge := { rst := false, cmdValid := true, cmd := w, rspReady := false }

/-- The host takes the response. -/
def take : Edge := { rst := false, cmdValid := false, cmd := 0#12, rspReady := true }

/-- The host asserts reset. -/
def reset : Edge := { rst := true, cmdValid := false, cmd := 0#12, rspReady := false }

end Edge

/-- The state. `ibuf`, `obuf`, `optr` and `err` are the block's (R10), `pending` is a transaction between its two
handshakes (R45, R46), `cfg` is the instance's parameter (R6), and `inputs` and `responses` are the model's own:
what the host will drive and what it has received. `ILEN` and `OLEN` are the lengths of the two lists (R13, log 1). -/
structure State where
  /-- `IBUF_DEPTH` of this instance; no step writes it. -/
  cfg : Config
  /-- The valid entries `IBUF[0 .. ILEN-1]`, first pushed first (R11). -/
  ibuf : List Byte
  /-- The valid entries `OBUF[0 .. OLEN-1]` (R12). -/
  obuf : List Byte
  /-- `OPTR`: the index of the next entry `POP` returns. -/
  optr : Nat
  /-- `ERR`: the last run command raised DecodeError (R15). -/
  err : Bool
  /-- The response of the accepted command, until it is delivered (R46). -/
  pending : Option RspWord
  /-- The host's drive of the input ports, next rising edge first (log 3). -/
  inputs : List Edge
  /-- The responses delivered so far, oldest first (log 5). -/
  responses : List RspWord
  deriving DecidableEq, Repr

/-- The state after reset of an instance with parameter `c` (R24, R130), the host having done nothing yet. -/
def State.resetAt (c : Config) : State :=
  { cfg := c, ibuf := [], obuf := [], optr := 0, err := false, pending := none, inputs := [], responses := [] }

/-- The state after reset. The depth of the instance is the model's choice (log 2). -/
def State.reset : State := State.resetAt Config.chosen

end Sys2Proof.Machine
end

