-- ==== Sys2Proof/Machine/Lut.lean ====
section
/-! DEFINITION. The sub-block alphabet_lut: the table, the case fold and the inverse lookup (spec rules R60 to
R66). -/

namespace Sys2Proof.Machine

/-- The 32 entries of `ROM`, entry `i` the code of the `i`-th character of `ybndrfg8ejkmcpqxot1uwisza345h769`
(R60; the codes are R65's). A constant, not state (R21). -/
def rom : List Byte :=
  [ 0x79#8, 0x62#8, 0x6E#8, 0x64#8, 0x72#8, 0x66#8, 0x67#8, 0x38#8,
    0x65#8, 0x6A#8, 0x6B#8, 0x6D#8, 0x63#8, 0x70#8, 0x71#8, 0x78#8,
    0x6F#8, 0x74#8, 0x31#8, 0x75#8, 0x77#8, 0x69#8, 0x73#8, 0x7A#8,
    0x61#8, 0x33#8, 0x34#8, 0x35#8, 0x68#8, 0x37#8, 0x36#8, 0x39#8 ]

/-- The table has an entry for every quantum. -/
theorem rom_index_lt (q : Quantum) : q.toNat < rom.length := q.isLt

/-- `LutFwd(q) = ROM[q]`, total (R61). -/
def lutFwd (q : Quantum) : Byte := rom[q.toNat]'(rom_index_lt q)

/-- `Fold(c)` (R62): upper-case ASCII letters to lower case, every other code unchanged. `CASE_FOLD` is fixed at
true (R6, D9): there is no other mode. -/
def fold (c : Byte) : Byte := if 0x41#8 ≤ c ∧ c ≤ 0x5A#8 then c + 0x20#8 else c

/-- `LutInv(c)` (R63): the index of `Fold(c)` in the table, or `none` when the symbol is not a member. -/
def lutInv (c : Byte) : Option Quantum :=
  (rom.findIdx? (fun e => e == fold c)).map (BitVec.ofNat 5)

/-- A symbol is a member when `LutInv` is defined on it (R66). -/
def isMember (c : Byte) : Bool := (lutInv c).isSome

/-- `Validate` (R95): the quanta of the whole message, or `none` (invalid) when some symbol is not a member,
wherever it stands. -/
def validate : List Byte → Option (List Quantum)
  | [] => some []
  | c :: cs =>
    match lutInv c, validate cs with
    | some q, some qs => some (q :: qs)
    | _, _ => none

end Sys2Proof.Machine
end

