-- ==== Sys2Proof/Machine/Ops.lean ====
section
/-! DEFINITION. The named operations over the state: the counters, the storage accesses, the response, and the
shared outcomes of a command: refusal, DecodeError (entry, and why there is no return), reset. -/

namespace Sys2Proof.Machine

/-! ### Counters (spec rule R10) -/

/-- `ILEN`: the number of valid entries of `IBUF` (R10, R13). -/
def State.ilen (s : State) : Nat := s.ibuf.length

/-- `OLEN`: the number of valid entries of `OBUF` (R10, R13). -/
def State.olen (s : State) : Nat := s.obuf.length

/-! ### Storage (R30, R37) -/

/-- `MemRead((space, i), 1)` (R8): one 8-bit entry. An entry that is not valid holds no value (R13). -/
def State.memRead (s : State) (a : Space) (i : Nat) : Except Fault Byte :=
  match a with
  | .ibuf => (s.ibuf[i]?).elim (.error (.entryNotValid .ibuf i)) .ok
  | .obuf => (s.obuf[i]?).elim (.error (.entryNotValid .obuf i)) .ok
  | .rom => (rom[i]?).elim (.error (.noSuchEntry .rom i)) .ok

/-- `IBUF[ILEN] <- b; ILEN <- ILEN + 1` (R11, R101). -/
def State.appendInput (b : Byte) (s : State) : State := { s with ibuf := s.ibuf ++ [b] }

/-- The write of `PUSH`, which needs the entry `ILEN` to exist (R30). -/
def State.storeInput (b : Byte) (s : State) : Except Fault State :=
  if s.ilen < s.cfg.ibufDepth then .ok (s.appendInput b) else .error (.noSuchEntry .ibuf s.ilen)

/-- `OPTR <- OPTR + 1` (R102). -/
def State.advanceOptr (s : State) : State := { s with optr := s.optr + 1 }

/-- What a run command that succeeds leaves (R90, R91, R96, R97): the result in `OBUF[0 .. OLEN-1]`, `OPTR <- 0`,
`ERR <- 0`, and the input message consumed, `ILEN <- 0`. -/
def State.putResult (msg : List Byte) (s : State) : State :=
  { s with obuf := msg, optr := 0, err := false, ibuf := [] }

/-- The writes of a run command that succeeds, which need the entries `0 .. OLEN-1` of `OBUF` to exist (R30). -/
def State.storeResult (msg : List Byte) (s : State) : Except Fault State :=
  if msg.length ≤ s.cfg.obufDepth then .ok (s.putResult msg)
  else .error (.noSuchEntry .obuf s.cfg.obufDepth)

/-- `ILEN <- 0; OLEN <- 0; OPTR <- 0; ERR <- 0` (R104). -/
def State.clearAll (s : State) : State := { s with ibuf := [], obuf := [], optr := 0, err := false }

/-! ### Responses (R49, R50) -/

/-- The four response codes (R50). -/
inductive ResponseCode where
  | ok
  | data
  | refused
  | decerr
  deriving DecidableEq, Repr

/-- The two bits of a response code (R50). -/
def ResponseCode.bits : ResponseCode → BitVec 2
  | .ok => 0b00#2
  | .data => 0b01#2
  | .refused => 0b10#2
  | .decerr => 0b11#2

/-- `{code[1:0], data[7:0]}` (R49). -/
def rspWord (code : ResponseCode) (data : Byte) : RspWord := code.bits ++ data

/-- `respond(code, data)` (R8): the response word of the command that ends here. -/
def State.respond (code : ResponseCode) (data : Byte) (s : State) : State :=
  { s with pending := some (rspWord code data) }

/-- A performed command ends with its response; an access outside the storage stops the machine. -/
def finish (code : ResponseCode) (data : Byte) : Except Fault State → Host.Outcome State Fault Refusal
  | .ok s => .next (s.respond code data)
  | .error f => .fault f

/-! ### The two exceptional outcomes of a command (R113) -/

/-- `refuse()` (R112, R117): the response `REFUSED`, and nothing else changes. -/
def refuse (s : State) : Host.Outcome State Fault Refusal := .next (s.respond .refused 0x00#8)

/-- The state changes of `raise DecodeError()` (R116). -/
def State.failRun (s : State) : State := { s with obuf := [], optr := 0, err := true, ibuf := [] }

/-- TAKING THE ONE EXCEPTION: `raise DecodeError()` (R116), one atomic step that ends `DEC` or `DECR`. Nothing is
saved, no vector is taken, and there is nothing to return to or restore (R118): the next command is whatever the
host sends. -/
def raiseDecodeError (s : State) : Host.Outcome State Fault Refusal := .next (s.failRun.respond .decerr 0x00#8)

/-! ### Ports and reset (R45, R130, R132) -/

/-- The block enters the reset state (R24, R130). A command in flight is abandoned, its response never delivered
(R132). What the host has received and what it will do are the host's. -/
def State.resetBlock (s : State) : State :=
  { s with ibuf := [], obuf := [], optr := 0, err := false, pending := none }

/-- The response leaves by the response port (R45); the block can accept a command again (R46). -/
def State.deliver (r : RspWord) (s : State) : State :=
  { s with pending := none, responses := s.responses ++ [r] }

/-- The rising edge is past: the host's next drive comes up. -/
def State.pastEdge (s : State) : State := { s with inputs := s.inputs.tail }

end Sys2Proof.Machine
end

