-- ==== Sys2Proof/Machine/Flags.lean ====
section
/-! DEFINITION. The derived flags and the status register (spec rules R15, R16). The stored flag `ERR` is written
by the operations of Ops.lean only: `putResult`, `clearAll`, `resetBlock` (to 0) and `failRun` (to 1). -/

namespace Sys2Proof.Machine

/-- `OAVAIL`: `OPTR < OLEN` (R15). -/
def State.oavail (s : State) : Bool := decide (s.optr < s.olen)

/-- `IFULL`: `ILEN = IBUF_DEPTH` (R15). -/
def State.ifull (s : State) : Bool := decide (s.ilen = s.cfg.ibufDepth)

/-- `IEMPTY`: `ILEN = 0` (R15). -/
def State.iempty (s : State) : Bool := decide (s.ilen = 0)

/-- `STATUS = {0b0000, IEMPTY, IFULL, ERR, OAVAIL}` (R16): a view, not storage. -/
def State.status (s : State) : Byte :=
  0b0000#4 ++ BitVec.ofBool s.iempty ++ BitVec.ofBool s.ifull ++ BitVec.ofBool s.err ++ BitVec.ofBool s.oavail

end Sys2Proof.Machine
end

