-- ==== Sys2Proof/Machine/Packer.lean ====
section
/-! DEFINITION. The packer datapath (spec rules R70 to R87): four total functions on sequences. -/

namespace Sys2Proof.Machine

/-! ### Values of sequences (R8) -/

/-- `be(B)`: the big-endian value of a byte sequence, first byte most significant. -/
def be : List Byte → Nat
  | [] => 0
  | b :: bs => b.toNat <<< (8 * bs.length) + be bs

/-- `bytes_be(v, n)`: byte `i` is `v[8(n-1-i)+7 : 8(n-1-i)]`. -/
def bytesBe (v n : Nat) : List Byte :=
  (List.range n).map (fun i => BitVec.ofNat 8 (v >>> (8 * (n - 1 - i))))

/-- `v[5j+4 : 5j]` as a quantum. -/
def quantumAt (v j : Nat) : Quantum := BitVec.ofNat 5 (v >>> (5 * j))

/-! ### Standard policy (R71, R75) -/

/-- `S(p)`: position `p`, counted from the front, of the message's bit string, zero past its end (R33, R71). -/
def stdBit (B : List Byte) (p : Nat) : Bool :=
  match B[p / 8]? with
  | some b => b.getLsbD (7 - p % 8)
  | none => false

/-- Five bits as a quantum, the first its bit 4 (R71). -/
def quantumOfBits (b4 b3 b2 b1 b0 : Bool) : Quantum :=
  BitVec.ofBool b4 ++ BitVec.ofBool b3 ++ BitVec.ofBool b2 ++ BitVec.ofBool b1 ++ BitVec.ofBool b0

/-- `PackStd(B)` (R71): group `k` is positions `5k .. 5k+4`. -/
def packStd (B : List Byte) : List Quantum :=
  (List.range (ceilDiv (8 * B.length) 5)).map (fun k =>
    quantumOfBits (stdBit B (5 * k)) (stdBit B (5 * k + 1)) (stdBit B (5 * k + 2)) (stdBit B (5 * k + 3))
      (stdBit B (5 * k + 4)))

/-- `T(p)`: position `p`, counted from the front, of the bit string of a quantum sequence (R75). -/
def unstdBit (Q : List Quantum) (p : Nat) : Bool :=
  match Q[p / 5]? with
  | some q => q.getLsbD (4 - p % 5)
  | none => false

/-- Eight bits as a byte, the first its bit 7 (R75). -/
def byteOfBits (b7 b6 b5 b4 b3 b2 b1 b0 : Bool) : Byte :=
  BitVec.ofBool b7 ++ BitVec.ofBool b6 ++ BitVec.ofBool b5 ++ BitVec.ofBool b4 ++ BitVec.ofBool b3
    ++ BitVec.ofBool b2 ++ BitVec.ofBool b1 ++ BitVec.ofBool b0

/-- `UnpackStd(Q)` (R75): byte `i` is positions `8i .. 8i+7`; what is left of the bit string is dropped. -/
def unpackStd (Q : List Quantum) : List Byte :=
  (List.range (5 * Q.length / 8)).map (fun i =>
    byteOfBits (unstdBit Q (8 * i)) (unstdBit Q (8 * i + 1)) (unstdBit Q (8 * i + 2)) (unstdBit Q (8 * i + 3))
      (unstdBit Q (8 * i + 4)) (unstdBit Q (8 * i + 5)) (unstdBit Q (8 * i + 6)) (unstdBit Q (8 * i + 7)))

/-! ### The integer forms of the standard policy (R72, R75) -/

/-- The value of a quantum sequence, `Q[0]` its most significant digit (R75). -/
def quantaBe : List Quantum → Nat
  | [] => 0
  | q :: qs => q.toNat <<< (5 * qs.length) + quantaBe qs

/-- The integer form of `PackStd` (R72): `be(B) << pad` read as base-32 digits, most significant first. -/
def packStdInt (B : List Byte) : List Quantum :=
  (List.range (ceilDiv (8 * B.length) 5)).map (fun k =>
    quantumAt (be B <<< (5 * ceilDiv (8 * B.length) 5 - 8 * B.length)) (ceilDiv (8 * B.length) 5 - 1 - k))

/-- The integer form of `UnpackStd` (R75): `bytes_be(W >> drop, m)`. -/
def unpackStdInt (Q : List Quantum) : List Byte :=
  bytesBe (quantaBe Q >>> (5 * Q.length - 8 * (5 * Q.length / 8))) (5 * Q.length / 8)

/-! ### Rspamd policy (R77 to R82) -/

/-- Part `t` of a sequence cut from the front into parts of `n` (R36): elements `nt .. min(nt+n-1, len-1)`. -/
def part {α : Type} (n : Nat) (l : List α) (t : Nat) : List α := (l.drop (n * t)).take n

/-- `BlockRsp(K)` (R79 for a full block, R80 for a short one): `ceil(8k/5)` groups of the block value, from its low
end; bits above the value read as zero. The count and the bit order inside a group are the spec's D10, D11. -/
def blockRsp (K : List Byte) : List Quantum :=
  (List.range (ceilDiv (8 * K.length) 5)).map (quantumAt (be K))

/-- `PackRsp(B)` (R77): the blocks of 5 bytes in order, each through `BlockRsp`. -/
def packRsp (B : List Byte) : List Quantum :=
  (List.range (ceilDiv B.length 5)).flatMap (fun t => blockRsp (part 5 B t))

/-- `W = sum over j of G[j] << 5j` (R81, R82): `G[0]` least significant. -/
def groupValue : List Quantum → Nat
  | [] => 0
  | q :: qs => q.toNat + groupValue qs <<< 5

/-- `GroupRsp(G)` (R81 for a full group, R82 for a trailing one): `floor(5m/8)` bytes, the low bits of the group
value; the high bits are dropped unexamined. The trailing group is the spec's D12. -/
def groupRsp (G : List Quantum) : List Byte :=
  bytesBe (groupValue G % 2 ^ (8 * (5 * G.length / 8))) (5 * G.length / 8)

/-- `UnpackRsp(Q)` (R81): the groups of 8 quanta in order, each through `GroupRsp`. -/
def unpackRsp (Q : List Quantum) : List Byte :=
  (List.range (ceilDiv Q.length 8)).flatMap (fun t => groupRsp (part 8 Q t))

/-- The number of quanta `PackRsp` gives for `n` bytes, as R83 writes it block by block (it rests on the spec's D10). -/
def packRspCount (n : Nat) : Nat := 8 * (n / 5) + ceilDiv (8 * (n % 5)) 5

/-- The number of bytes `UnpackRsp` gives for `L` quanta, as R83 writes it group by group (it rests on the spec's
D12). -/
def unpackRspCount (L : Nat) : Nat := 5 * (L / 8) + 5 * (L % 8) / 8

/-! ### By policy (R70) -/

/-- The forward direction of the packer. -/
def pack : Policy → List Byte → List Quantum
  | .standard, B => packStd B
  | .rspamd, B => packRsp B

/-- The backward direction of the packer. -/
def unpack : Policy → List Quantum → List Byte
  | .standard, Q => unpackStd Q
  | .rspamd, Q => unpackRsp Q

end Sys2Proof.Machine
end

