-- ==== Sys2Proof/Machine/Operands.lean ====
section
/-! DEFINITION. The operand forms: the immediate of `PUSH`, the whole input message of a run command, and the
implicit read operand of `POP` (spec rules R48, R95, R102). -/

namespace Sys2Proof.Machine

/-- The operand of `PUSH` (R48): `imm8` exactly as it stands; not extended, scaled, shifted or folded. -/
def pushOperand (imm8 : Byte) : Byte := imm8

/-- The input message `IBUF[0 .. ILEN-1]` of a run command (R90, R96). -/
def State.inputMessage (s : State) : List Byte := s.ibuf

/-- The input message as a valid symbol sequence, looked up (R95), or `none` when it is invalid. -/
def State.inputQuanta (s : State) : Option (List Quantum) := validate s.inputMessage

/-- `OBUF[OPTR]`, the operand of `POP` (R102). -/
def State.nextOutput (s : State) : Except Fault Byte := s.memRead .obuf s.optr

/-- The output message of an encode (R90, R91): the packed input message through the alphabet. -/
def encodeMessage (p : Policy) (B : List Byte) : List Byte := (pack p B).map lutFwd

/-- The output message of a decode (R96, R97), or `none` for DecodeError. -/
def decodeMessage (p : Policy) (m : List Byte) : Option (List Byte) := (validate m).map (unpack p)

end Sys2Proof.Machine
end

