-- ==== Sys2Proof/Machine/Buffer.lean ====
section
/-! DEFINITION. The buffer and system commands `NOP`, `PUSH`, `POP`, `STAT`, `CLR`, and what a reserved word does
(spec rules R100 to R105). -/

namespace Sys2Proof.Machine

/-- `NOP` (R100). -/
def execNop (s : State) : Host.Outcome State Fault Refusal := .next (s.respond .ok 0x00#8)

/-- `PUSH imm8` (R101). -/
def execPush (imm8 : Byte) (s : State) : Host.Outcome State Fault Refusal :=
  if s.ilen = s.cfg.ibufDepth then refuse s
  else finish .ok 0x00#8 (s.storeInput (pushOperand imm8))

/-- `POP` (R102). -/
def execPop (s : State) : Host.Outcome State Fault Refusal :=
  if s.optr = s.olen then refuse s
  else
    match s.nextOutput with
    | .ok d => .next (s.advanceOptr.respond .data d)
    | .error f => .fault f

/-- `STAT` (R103). -/
def execStat (s : State) : Host.Outcome State Fault Refusal := .next (s.respond .data s.status)

/-- `CLR` (R104). -/
def execClr (s : State) : Host.Outcome State Fault Refusal := .next (s.clearAll.respond .ok 0x00#8)

/-- A reserved word (R105): refused, whatever the state and whatever the reason it is reserved. -/
def execReserved (_why : ReservedWord) (s : State) : Host.Outcome State Fault Refusal := refuse s

end Sys2Proof.Machine
end

