-- ==== Sys2Proof/Machine/Run.lean ====
section
/-! DEFINITION. The run commands `ENC`, `ENCR`, `DEC`, `DECR` (spec rules R90, R91, R95 to R97). -/

namespace Sys2Proof.Machine

/-- An encode under a policy: never refused, no exception (R90, R91). -/
def runEncode (p : Policy) (s : State) : Host.Outcome State Fault Refusal :=
  finish .ok 0x00#8 (s.storeResult (encodeMessage p s.inputMessage))

/-- A decode under a policy: the whole message is validated before any byte is reconstructed (R95, R115). -/
def runDecode (p : Policy) (s : State) : Host.Outcome State Fault Refusal :=
  match s.inputQuanta with
  | none => raiseDecodeError s
  | some Q => finish .ok 0x00#8 (s.storeResult (unpack p Q))

/-- `ENC` (R90): `encode`, standard policy. -/
def execEnc (s : State) : Host.Outcome State Fault Refusal := runEncode .standard s

/-- `DEC` (R96): `decode`, standard policy. -/
def execDec (s : State) : Host.Outcome State Fault Refusal := runDecode .standard s

/-- `ENCR` (R91): `encode_rspamd`, rspamd policy. -/
def execEncr (s : State) : Host.Outcome State Fault Refusal := runEncode .rspamd s

/-- `DECR` (R97): `decode_rspamd`, rspamd policy. -/
def execDecr (s : State) : Host.Outcome State Fault Refusal := runDecode .rspamd s

end Sys2Proof.Machine
end

