-- ==== Sys2Proof/Machine/Dispatch.lean ====
section
/-! DEFINITION. One arm per command. -/

namespace Sys2Proof.Machine

def exec (i : Instr) (s : State) : Host.Outcome State Fault Refusal :=
  match i with
  | .nop => Sys2Proof.Machine.execNop s
  | .push imm8 => Sys2Proof.Machine.execPush imm8 s
  | .pop => Sys2Proof.Machine.execPop s
  | .stat => Sys2Proof.Machine.execStat s
  | .clr => Sys2Proof.Machine.execClr s
  | .enc => Sys2Proof.Machine.execEnc s
  | .dec => Sys2Proof.Machine.execDec s
  | .encr => Sys2Proof.Machine.execEncr s
  | .decr => Sys2Proof.Machine.execDecr s

end Sys2Proof.Machine
end

