-- ==== Sys2Proof/Machine/Port.lean ====
section
/-! DEFINITION. The command and response ports (spec rules R45, R46, R130, R132, R142): what one rising edge of
`clk` does. -/

namespace Sys2Proof.Machine

/-! ### The output ports -/

/-- `cmd_ready` (R45, R46): 0 while `rst = 1` (R130), 0 between acceptance and delivery. DESIGN CHOICE (log 21, unsafe
for claims that count edges): it is up again at the very edge after a delivery and stays up while the block is idle;
the spec gives no edge (R141, P6). After reset: log 17. -/
def State.cmdReady (s : State) (e : Edge) : Bool := !e.rst && s.pending.isNone

/-- `rsp_valid` (R45): 0 while `rst = 1` (R130), 1 while a response is offered. DESIGN CHOICE (log 4, unsafe for claims
that count edges): the response is offered from the edge after the acceptance on. -/
def State.rspValid (s : State) (e : Edge) : Bool := !e.rst && s.pending.isSome

/-- `rsp` (R45): the response word offered; absent when `rsp_valid = 0`, where the spec gives it no value (P6). -/
def State.rspPort (s : State) (e : Edge) : Option RspWord := if s.rspValid e then s.pending else none

/-! ### The two handshakes -/

/-- A command is accepted at an edge at which `rst = 0`, `cmd_valid = 1` and `cmd_ready = 1` (R45). -/
def State.accepts (s : State) (e : Edge) : Bool := !e.rst && e.cmdValid && s.cmdReady e

/-- A response is delivered at an edge at which `rst = 0`, `rsp_valid = 1` and `rsp_ready = 1` (R45). -/
def State.delivers (s : State) (e : Edge) : Bool := !e.rst && s.rspValid e && e.rspReady

/-- An accepted command word: decoded first (R115); a reserved word is refused and nothing else is looked at. -/
def acceptWord (w : CmdWord) (s : State) : Host.Outcome State Fault Refusal :=
  match decode w with
  | .ok i => exec i s
  | .error why => execReserved why s

/-- One rising edge of `clk` at which the input ports are `e`. Reset overrides everything (R115, R132); an edge at
which nothing is accepted and nothing delivered changes nothing (R142). -/
def clockEdge (e : Edge) (s : State) : Host.Outcome State Fault Refusal :=
  if e.rst then .next s.resetBlock
  else if s.accepts e then acceptWord e.cmd s
  else if s.delivers e then .next ((s.pending.elim s (fun r => s.deliver r)))
  else .next s

/-- One step: the next rising edge of the host's drive. When the host does nothing more (`cmd_valid = 0`,
`rsp_ready = 0`, `rst = 0` for good), the block stays as it is (R142). -/
def stepEdge (s : State) : Host.Outcome State Fault Refusal :=
  match s.inputs with
  | [] => .next s
  | e :: _ => clockEdge e s.pastEdge

/-- The transaction of R46: the command word accepted at one edge, its response delivered at a later one. -/
def transaction (w : CmdWord) : List Edge := [Edge.offer w, Edge.take]

/-- The drive of a host that issues the command words in order and takes every response (log 9). -/
def hostScript (ws : List CmdWord) : List Edge := ws.flatMap transaction

/-- The block made ready for a command (a response still in flight is delivered, R46) and the host offering the
command word at the next edge; a number that is no command word leaves the host offering nothing (log 9, 10). -/
def State.offerWord (s : State) (w : Option CmdWord) : State :=
  { (s.pending.elim s (fun r => s.deliver r)) with inputs := (w.map Edge.offer).toList }

end Sys2Proof.Machine
end

