-- ==== Sys2Proof/Machine/Step.lean ====
section
/-! DEFINITION. The step of the machine, and how the host places one command word before it. -/

namespace Sys2Proof.Machine

/-- One step: one rising edge of `clk` (spec rules R45, R46, R130). -/
def step (s : State) : Host.Outcome State Fault Refusal := stepEdge s

/-- The state in which the very next step accepts and runs the command word numbered `w` (log 9). -/
def State.withFetchWord (s : State) (nbits w : Nat) : State := s.offerWord (tableWord nbits w)

end Sys2Proof.Machine
end

