-- ==== Sys2Proof/Machine/Assembler.lean ====
section
/-! DEFINITION. The notation for command programs (spec rules R55, R56): mnemonics, operand literals, one command a
line, the listing form, and the pseudo-commands. Notation only: it adds no command and no state. -/

namespace Sys2Proof.Machine

/-- The mnemonic of a command, in upper case (R51, R55). -/
def mnemonic : Instr → String
  | .nop => "NOP"
  | .push _ => "PUSH"
  | .pop => "POP"
  | .stat => "STAT"
  | .clr => "CLR"
  | .enc => "ENC"
  | .dec => "DEC"
  | .encr => "ENCR"
  | .decr => "DECR"

/-! ### Operand literals -/

/-- The 8-bit code of a character: its ASCII code (R65). No character has a code `0x80 .. 0xFF`. -/
def charCode (c : Char) : Option Byte := if c.toNat < 0x80 then some (BitVec.ofNat 8 c.toNat) else none

/-- A digit of base 10 or 16; either case (log 14). -/
def digit? (base : Nat) (c : Char) : Option Nat :=
  let v :=
    if '0' ≤ c ∧ c ≤ '9' then c.toNat - '0'.toNat
    else if 'A' ≤ c ∧ c ≤ 'F' then c.toNat - 'A'.toNat + 10
    else if 'a' ≤ c ∧ c ≤ 'f' then c.toNat - 'a'.toNat + 10
    else base
  if v < base then some v else none

/-- The value of a non-empty row of digits. -/
def digits? (base : Nat) : List Char → Option Nat
  | [] => none
  | cs => cs.foldl (fun acc c => acc.bind (fun a => (digit? base c).map (fun d => a * base + d))) (some 0)

/-- A value that fits 8 bits (R48). -/
def byte? (v : Option Nat) : Option Byte :=
  v.bind (fun n => if n < 2 ^ 8 then some (BitVec.ofNat 8 n) else none)

/-- An operand literal (R55): hexadecimal, decimal, or a character in single quotes. -/
def parseOperand : List Char → Option Byte
  | ['\'', c, '\''] => charCode c
  | '0' :: 'x' :: hex => byte? (digits? 16 hex)
  | dec => byte? (digits? 10 dec)

/-! ### Lines -/

/-- The line without its comment (R55). A `;` inside a character literal starts no comment (log 14). -/
def stripComment : List Char → List Char
  | [] => []
  | '\'' :: c :: '\'' :: rest => '\'' :: c :: '\'' :: stripComment rest
  | ';' :: _ => []
  | c :: rest => c :: stripComment rest

/-- Without the spaces at both ends. -/
def trimSpaces (l : List Char) : List Char :=
  ((l.dropWhile (· == ' ')).reverse.dropWhile (· == ' ')).reverse

/-- One line (R55): the command on it, `some none` for a line with no command, `none` for a line that is no line
of the syntax. -/
def assembleLine (line : List Char) : Option (Option Instr) :=
  let l := trimSpaces (stripComment line)
  let word := l.takeWhile (· != ' ')
  let operand := trimSpaces (l.dropWhile (· != ' '))
  if l = [] then some none
  else if word = "PUSH".toList then (parseOperand operand).map (fun b => some (.push b))
  else if operand ≠ [] then none
  else if word = "NOP".toList then some (some .nop)
  else if word = "POP".toList then some (some .pop)
  else if word = "STAT".toList then some (some .stat)
  else if word = "CLR".toList then some (some .clr)
  else if word = "ENC".toList then some (some .enc)
  else if word = "DEC".toList then some (some .dec)
  else if word = "ENCR".toList then some (some .encr)
  else if word = "DECR".toList then some (some .decr)
  else none

/-! ### The listing form -/

/-- A hexadecimal digit, upper case. -/
def hexChar (n : Nat) : Char := if n % 16 < 10 then Char.ofNat (48 + n % 16) else Char.ofNat (55 + n % 16)

/-- The low `k` hexadecimal digits of a number. -/
def hexDigits (k n : Nat) : List Char := (List.range k).map (fun i => hexChar (n >>> (4 * (k - 1 - i))))

/-- The command of a word as R55 writes it; a reserved word is written `(reserved)`. -/
def showWord (w : CmdWord) : List Char :=
  match decode w with
  | .ok (.push b) => "PUSH 0x".toList ++ hexDigits 2 b.toNat
  | .ok i => (mnemonic i).toList
  | .error _ => "(reserved)".toList

/-- A response as the listing form writes it (R50, R55). -/
def showResponse (r : RspWord) : List Char :=
  if r.extractLsb' 8 2 = 0b00#2 then "OK".toList
  else if r.extractLsb' 8 2 = 0b01#2 then "DATA 0x".toList ++ hexDigits 2 (r.extractLsb' 0 8).toNat
  else if r.extractLsb' 8 2 = 0b10#2 then "REFUSED".toList
  else "DECERR".toList

/-- `word  mnemonic operand ; response` (R55). -/
def listingLine (w : CmdWord) (r : RspWord) : List Char :=
  hexDigits 3 w.toNat ++ "  ".toList ++ showWord w ++ " ; ".toList ++ showResponse r

/-! ### Pseudo-commands (R56) -/

/-- `PUSHB b0, b1, ..., bm`. -/
def pushb (bs : List Byte) : List Instr := bs.map .push

/-- `PUSHS "c0c1...cm"`; a character without an 8-bit code makes it no pseudo-command. -/
def pushs (cs : List Char) : Option (List Instr) := (cs.mapM charCode).map pushb

/-- `POPN n`. -/
def popn (n : Nat) : List Instr := List.replicate n .pop

/-- `POPALL` in a state with `OLEN - OPTR = r`: `r + 1` `POP` commands, the last one refused. -/
def popall (s : State) : List Instr := popn (s.olen - s.optr + 1)

end Sys2Proof.Machine
end

