-- ==== Sys2Proof/WellFormed.lean ====
section
/-! DEFINITION. What is well formed: every command (its type already says all there is to check) and an
instance's parameter. -/

namespace Sys2Proof

/-- Every command is well formed: all 256 values of `imm8` are legal for `PUSH` (R48) and no other command
has an operand (R47). -/
def Instr.wellFormed : Instr → Bool
  | .nop => true
  | .push _ => true
  | .pop => true
  | .stat => true
  | .clr => true
  | .enc => true
  | .dec => true
  | .encr => true
  | .decr => true

/-- `IBUF_DEPTH >= 1` (R6). -/
def Config.wellFormed (c : Config) : Bool := decide (1 ≤ c.ibufDepth)

end Sys2Proof
end

