-- ==== Sys2Proof/Safety.lean ====
section
/-! DEFINITION. What a good state is (spec rule R14), what is reachable, and what claims about runs are stated
in. -/

namespace Sys2Proof.Machine

/-- The storage has its canonical form: the entries that hold a value are the first `ILEN` of `IBUF` and the first
`OLEN` of `OBUF` (by the form of the state, R13), and they lie inside the buffers (R14). -/
def Memory.wf (s : State) : Bool :=
  decide (s.ilen ≤ s.cfg.ibufDepth) && decide (s.olen ≤ s.cfg.obufDepth)

/-- The invariant of R14, with the parameter's bound of R6: `IBUF_DEPTH >= 1`, `0 <= ILEN <= IBUF_DEPTH`,
`0 <= OPTR <= OLEN <= OBUF_DEPTH`, and `ERR = 1` implies `OLEN = 0`. -/
structure State.Inv (s : State) : Prop where
  depth : 1 ≤ s.cfg.ibufDepth
  ilen : s.ilen ≤ s.cfg.ibufDepth
  optr : s.optr ≤ s.olen
  olen : s.olen ≤ s.cfg.obufDepth
  err : s.err = true → s.olen = 0

/-- The states a run reaches from the reset state of an instance, whatever the host does. -/
inductive Reachable (c : Config) (drive : List Edge) : State → Prop where
  | reset : Reachable c drive { State.resetAt c with inputs := drive }
  | step {s t : State} : Reachable c drive s → step s = .next t → Reachable c drive t

/-- The same six items of R10: what a command can read and write, without the ports and the host. -/
def State.SameBlock (s t : State) : Prop := t.ibuf = s.ibuf ∧ t.obuf = s.obuf ∧ t.optr = s.optr ∧ t.err = s.err

/-- The same parameter, and the same drive and record of the host: what no command touches. -/
def State.SameHost (s t : State) : Prop := t.cfg = s.cfg ∧ t.inputs = s.inputs ∧ t.responses = s.responses

/-- Some symbol of the input message is not a member (R110). -/
def State.HasNonMember (s : State) : Prop := ∃ c ∈ s.ibuf, lutInv c = none

/-- The next state of an outcome, if it is one. -/
def nextState? : Host.Outcome State Fault Refusal → Option State
  | .next s => some s
  | .fault _ => none
  | .refused _ => none

/-- Commands one after the other, each response taken before the next command (R40): the responses in order and the
state after the last delivery; `none` when one of them does not complete. -/
def execAll : List Instr → State → Option (List RspWord × State)
  | [], s => some ([], s)
  | i :: is, s =>
    match exec i s with
    | .next t =>
      match t.pending with
      | some r => (execAll is { t with pending := none }).map (fun p => (r :: p.1, p.2))
      | none => none
    | .fault _ => none
    | .refused _ => none

end Sys2Proof.Machine
end

