-- ==== Sys2Proof/Certificates/Slice0/Obligations.lean ====
section
/-! DEFINITION. The statements about base32_bit_packer, from the numbered rules of spec/. Every one speaks of every
depth `IBUF_DEPTH`: the parameter is a field of the state and `State.Inv` bounds it by 1 from below only. -/

open Sys2Proof Sys2Proof.Machine

/-! ### The command word -/

/-- Command words written out from R51 and R54 decode to the commands they stand for, and reserved words of R52 do
not decode. -/
def Obligations.WrittenOutWordsDecode : Prop :=
  decode 0b000000000000#12 = .ok .nop ∧ decode 0b000110100101#12 = .ok (.push 0xA5#8) ∧
  decode 0b001000000000#12 = .ok .pop ∧ decode 0b001100000000#12 = .ok .stat ∧
  decode 0b010000000000#12 = .ok .clr ∧ decode 0b100000000000#12 = .ok .enc ∧
  decode 0b100100000000#12 = .ok .dec ∧ decode 0b101000000000#12 = .ok .encr ∧
  decode 0b101100000000#12 = .ok .decr ∧
  decode 0x801#12 = .error (.strayImmediate 0x8#4 0x01#8) ∧ decode 0xFFF#12 = .error (.unassignedOpcode 0xF#4)

/-- R53: decoding is by the table alone. `PUSH` for `opc = 0x1`; else, for `imm8 = 0x00`, the command R51 names for
`opc`; else the word is reserved. The decoder takes the word only, so it depends on no state. -/
def Obligations.DecodingFollowsTheTable : Prop :=
  ∀ w : CmdWord,
    let opc : BitVec 4 := w.extractLsb' 8 4
    let imm8 : Byte := w.extractLsb' 0 8
    (opc = 0x1#4 → decode w = .ok (.push imm8)) ∧
    (imm8 = 0x00#8 →
      (opc = 0x0#4 → decode w = .ok .nop) ∧ (opc = 0x2#4 → decode w = .ok .pop) ∧
      (opc = 0x3#4 → decode w = .ok .stat) ∧ (opc = 0x4#4 → decode w = .ok .clr) ∧
      (opc = 0x8#4 → decode w = .ok .enc) ∧ (opc = 0x9#4 → decode w = .ok .dec) ∧
      (opc = 0xA#4 → decode w = .ok .encr) ∧ (opc = 0xB#4 → decode w = .ok .decr)) ∧
    (opc ≠ 0x1#4 →
      imm8 ≠ 0x00#8 ∨ opc ∉ [0x0#4, 0x2#4, 0x3#4, 0x4#4, 0x8#4, 0x9#4, 0xA#4, 0xB#4] →
      ∃ why, decode w = .error why)

/-- Decode and encode agree in both directions: a word decodes to a command exactly when it is that command's word, so
no bit of an encoding is dropped and no word has two meanings. -/
def Obligations.DecodeExactlyInvertsEncode : Prop :=
  ∀ (w : CmdWord) (i : Instr), decode w = .ok i ↔ encode i = w

/-- R51: the rows of the table do not overlap, and a command's word selects the row of its own mnemonic. -/
def Obligations.TableRowsSelectTheirCommands : Prop :=
  (∀ w : CmdWord, (opcodeTable.filter (·.selects w)).length ≤ 1) ∧
  (∀ i : Instr, ∀ row ∈ opcodeTable, row.selects (encode i) = true ↔ row.mnemonic = mnemonic i)

/-- R105 and the words of R52: a word that matches no row has an unassigned `opc`, or a non-zero `imm8` beside an
`opc` other than that of `PUSH`; in every state it is answered `REFUSED` and writes nothing. -/
def Obligations.ReservedWordsAreRefused : Prop :=
  ∀ w : CmdWord,
    (isReserved w = true ↔
      opcField w ∈ [0x5#4, 0x6#4, 0x7#4, 0xC#4, 0xD#4, 0xE#4, 0xF#4] ∨
      (opcField w ∈ [0x0#4, 0x2#4, 0x3#4, 0x4#4, 0x8#4, 0x9#4, 0xA#4, 0xB#4] ∧ immField w ≠ 0x00#8)) ∧
    (isReserved w = true → ∀ s : State, acceptWord w s = .next { s with pending := some 0x200#10 })

/-- The listing notation of R55 names every command: the text of a command's word assembles to that command. The
accepted spellings beyond R55's words are the model's (log 14). -/
def Obligations.ListingAssemblesBack : Prop :=
  ∀ i : Instr, assembleLine (showWord (encode i)) = some (some i)

/-! ### Ports, steps and reset -/

/-- A step runs the decoded command: at an edge that accepts a word that decodes to `i`, the step is `exec i` at the
state in which that edge is past. The model's own: an idle block accepts at every edge with `rst = 0` and
`cmd_valid = 1` (log 17 after reset, log 21 after a delivery), and the whole effect falls at that edge (log 6). -/
def Obligations.StepRunsTheDecodedCommand : Prop :=
  ∀ (s : State) (e : Edge) (rest : List Edge) (i : Instr),
    s.inputs = e :: rest → e.rst = false → e.cmdValid = true → s.pending = none → decode e.cmd = .ok i →
    step s = exec i { s with inputs := rest }

/-- R142: an edge changes nothing but the host's drive when a command is not offered to an idle block, and when the
response in flight is not taken. -/
def Obligations.BlockWaitsForTheHost : Prop :=
  ∀ (s : State) (e : Edge) (rest : List Edge), s.inputs = e :: rest → e.rst = false →
    (s.pending = none → e.cmdValid = false → step s = .next { s with inputs := rest }) ∧
    (∀ r, s.pending = some r → e.rspReady = false → step s = .next { s with inputs := rest })

/-- R130, R132: at an edge with `rst = 1`, whatever else the host drives and whatever is in flight, `cmd_ready` and
`rsp_valid` are 0 and the block enters the reset state; the abandoned response is never delivered. -/
def Obligations.ResetEdgeAbandonsTheCommand : Prop :=
  ∀ (s : State) (e : Edge) (rest : List Edge), s.inputs = e :: rest → e.rst = true →
    s.cmdReady e = false ∧ s.rspValid e = false ∧
    step s = .next { State.resetAt s.cfg with inputs := rest, responses := s.responses }

/-- R46: while a response is in flight the block is not ready and accepts nothing; a step that does not reset leaves
the block's state, and either delivers that response or keeps it. The model's own: the response is offered right after
its acceptance, so any edge with `rsp_ready = 1` delivers it (log 4). -/
def Obligations.OneCommandInFlight : Prop :=
  ∀ (s t : State) (e : Edge) (rest : List Edge) (r : RspWord),
    s.inputs = e :: rest → e.rst = false → s.pending = some r → step s = .next t →
    s.cmdReady e = false ∧ s.accepts e = false ∧ s.SameBlock t ∧ t.cfg = s.cfg ∧
    (e.rspReady = true → t.pending = none ∧ t.responses = s.responses ++ [r]) ∧
    (e.rspReady = false → t.pending = some r ∧ t.responses = s.responses)

/-- R46: a transaction is the command word accepted at one edge and exactly one response delivered at the next one the
model counts; the state after it is what the command left. The model's own: one edge for each handshake (log 4, log 6),
and that the idle block accepts at once (log 17, log 21). -/
def Obligations.TransactionAnswersOnce : Prop :=
  ∀ (s : State) (w : CmdWord) (rest : List Edge),
    s.Inv → s.pending = none → s.inputs = transaction w ++ rest →
    ∃ (t u : State) (r : RspWord),
      acceptWord w { s with inputs := Edge.take :: rest } = .next t ∧ t.pending = some r ∧
      step s = .next t ∧ step t = .next u ∧
      u = { t with pending := none, responses := s.responses ++ [r], inputs := rest }

/-- R40: whatever a step does, the parameter stays, and the record of responses grows by the response in flight or not
at all; the command it answers had taken effect before. -/
def Obligations.ResponsesLeaveInOrder : Prop :=
  ∀ s t : State, step s = .next t →
    t.cfg = s.cfg ∧ t.inputs = s.inputs.tail ∧
    (t.responses = s.responses ∨
      ∃ r, s.pending = some r ∧ t.pending = none ∧ t.responses = s.responses ++ [r] ∧ s.SameBlock t)

/-- R24: the state after reset, for an instance of any depth (`STATUS` as R16 derives it), and no response in flight
(R130). That an entry that is not valid holds no value is how the model renders 'unspecified; not observable' (log 15).
The depth of the one state
`State.reset` is the model's choice (log 2), and so are the empty drive and record of the host (log 3, log 5). -/
def Obligations.ResetValues : Prop :=
  ∀ c : Config, 1 ≤ c.ibufDepth →
    (State.resetAt c).ilen = 0 ∧ (State.resetAt c).olen = 0 ∧ (State.resetAt c).optr = 0 ∧
    (State.resetAt c).err = false ∧ (State.resetAt c).status = 0x08#8 ∧ (State.resetAt c).pending = none ∧
    (∀ i, (State.resetAt c).memRead .ibuf i = .error (.entryNotValid .ibuf i)) ∧
    (∀ i, (State.resetAt c).memRead .obuf i = .error (.entryNotValid .obuf i)) ∧
    (∀ q : Quantum, (State.resetAt c).memRead .rom q.toNat = .ok (lutFwd q))

/-- The invariant of R14 holds at the reset state of an instance of any depth, and at `State.reset`. -/
def Obligations.ResetMeetsTheInvariant : Prop :=
  (∀ c : Config, c.wellFormed = true → (State.resetAt c).Inv) ∧ State.reset.Inv ∧ Memory.wf State.reset = true

/-- R14: the counters stay inside the buffers and an error leaves no output, after every step from every state that
meets the invariant. -/
def Obligations.StepKeepsTheInvariant : Prop :=
  ∀ s t : State, s.Inv → step s = .next t → t.Inv ∧ Memory.wf t = true

/-- The totality of R46: from a state that meets the invariant a step always answers a next state, so no access falls
outside the buffers and nothing stops the block. -/
def Obligations.StepNeverStops : Prop :=
  ∀ s : State, s.Inv → ∃ t, step s = .next t

/-- Every state a run reaches, whatever the host drives and whatever the depth, meets the invariant and steps on. -/
def Obligations.ReachableStatesAreGood : Prop :=
  ∀ (c : Config) (drive : List Edge) (s : State), 1 ≤ c.ibufDepth → Reachable c drive s →
    s.Inv ∧ s.cfg = c ∧ ∃ t, step s = .next t

/-- R6, R14: the counters fit the derived widths, which are the least that hold their largest values. -/
def Obligations.CountersFitTheirWidths : Prop :=
  (∀ s : State, s.Inv →
    s.ilen < 2 ^ s.cfg.ilenW ∧ s.olen < 2 ^ s.cfg.olenW ∧ s.optr < 2 ^ s.cfg.olenW) ∧
  (∀ (c : Config) (w : Nat), (c.ibufDepth < 2 ^ w ↔ c.ilenW ≤ w) ∧ (c.obufDepth < 2 ^ w ↔ c.olenW ≤ w))

/-! ### The outcome of a command -/

/-- R113: the complete list of conditions under which each outcome occurs, for every word of the port and every good
state. -/
def Obligations.OutcomeConditions : Prop :=
  ∀ (s : State) (w : CmdWord), s.Inv →
    ∃ (t : State) (r : RspWord), acceptWord w s = .next t ∧ t.pending = some r ∧
      (r = 0x300#10 ↔ (w = 0x900#12 ∨ w = 0xB00#12) ∧ s.HasNonMember) ∧
      (r = 0x200#10 ↔
        (opcField w = 0x1#4 ∧ s.ilen = s.cfg.ibufDepth) ∨ (w = 0x200#12 ∧ s.optr = s.olen) ∨ isReserved w = true) ∧
      (r ≠ 0x300#10 → r ≠ 0x200#10 → r = 0x000#10 ∨ ∃ b : Byte, r = 0x100#10 ||| b.setWidth 10)

/-- R112: a command answered `REFUSED` changes no state at all, does not set `ERR`, and a later `STAT` cannot tell
that it happened. -/
def Obligations.RefusalChangesNothing : Prop :=
  ∀ (s t : State) (w : CmdWord), acceptWord w s = .next t → t.pending = some 0x200#10 →
    t = { s with pending := some 0x200#10 } ∧ exec .stat t = exec .stat s

/-- R110: DecodeError is answered by `DEC` and `DECR` and by no other command, exactly when the input message holds a
symbol that is not a member; R111: it is reported as `0x300` and as `ERR`, `STATUS[1]`. -/
def Obligations.DecodeErrorExactlyOnNonMembers : Prop :=
  ∀ (i : Instr) (s t : State), exec i s = .next t →
    (t.pending = some 0x300#10 ↔ (i = .dec ∨ i = .decr) ∧ s.HasNonMember) ∧
    (t.pending = some 0x300#10 → t.err = true ∧ t.status.getLsbD 1 = true)

/-- R116, R118: what `raise DecodeError()` does, for both decodes and in every state: no output entry is valid, the
input is consumed, `ERR` is 1, the response is `DECERR`; the state differs from the one `CLR` leaves in `ERR` only. -/
def Obligations.DecodeErrorEntry : Prop :=
  ∀ s : State, s.HasNonMember →
    exec .dec s =
      .next { s with ibuf := [], obuf := [], optr := 0, err := true, pending := some 0x300#10 } ∧
    exec .decr s = exec .dec s ∧
    ∀ t u : State, exec .dec s = .next t → exec .clr s = .next u →
      { t with err := false, pending := none } = { u with pending := none }

/-- R15, R118: what each command does to `ERR`, and that a step sets it only by a `DEC` or `DECR` that finds a
non-member. -/
def Obligations.WhoWritesErr : Prop :=
  (∀ (s t : State) (imm8 : Byte),
    (exec .nop s = .next t → t.err = s.err) ∧ (exec (.push imm8) s = .next t → t.err = s.err) ∧
    (exec .pop s = .next t → t.err = s.err) ∧ (exec .stat s = .next t → t.err = s.err) ∧
    (exec .clr s = .next t → t.err = false) ∧
    (exec .enc s = .next t → t.err = false) ∧ (exec .encr s = .next t → t.err = false) ∧
    (exec .dec s = .next t → (t.err = true ↔ s.HasNonMember)) ∧
    (exec .decr s = .next t → (t.err = true ↔ s.HasNonMember))) ∧
  (∀ s t : State, step s = .next t → s.err = false → t.err = true →
    ∃ e rest, s.inputs = e :: rest ∧ s.accepts e = true ∧ (e.cmd = 0x900#12 ∨ e.cmd = 0xB00#12) ∧ s.HasNonMember)

/-- R118, R15: `ERR` gates nothing. With the other value of `ERR` every command but `STAT` answers the same response
and leaves the same buffers and counters. -/
def Obligations.ErrGatesNothing : Prop :=
  ∀ (i : Instr) (s t : State) (b : Bool), i ≠ .stat → exec i s = .next t →
    ∃ u, exec i { s with err := b } = .next u ∧ u.pending = t.pending ∧ u.ibuf = t.ibuf ∧ u.obuf = t.obuf ∧
      u.optr = t.optr

/-! ### The buffer and system commands -/

/-- R100: `NOP` answers `OK` in every state and changes nothing. -/
def Obligations.NopOnlyAnswers : Prop :=
  encode .nop = 0x000#12 ∧ ∀ s : State, exec .nop s = .next { s with pending := some 0x000#10 }

/-- R101: `PUSH` appends its operand as it stands when the input buffer is not full, and is refused when it is; the
derived flags follow `ILEN`. -/
def Obligations.PushAppendsOrIsRefused : Prop :=
  ∀ (s : State) (imm8 : Byte), s.Inv →
    encode (.push imm8) = 0x100#12 ||| imm8.setWidth 12 ∧
    (s.ilen = s.cfg.ibufDepth → exec (.push imm8) s = .next { s with pending := some 0x200#10 }) ∧
    (s.ilen ≠ s.cfg.ibufDepth →
      ∃ t, exec (.push imm8) s = .next t ∧ t = { s with ibuf := s.ibuf ++ [imm8], pending := some 0x000#10 } ∧
        t.ilen = s.ilen + 1 ∧ t.memRead .ibuf s.ilen = .ok imm8 ∧ t.iempty = false ∧
        (t.ifull = true ↔ s.ilen + 1 = s.cfg.ibufDepth))

/-- R102: `POP` returns `OBUF[OPTR]` and advances `OPTR` when unread output remains, and is refused when none does;
`OAVAIL` follows the new `OPTR`. -/
def Obligations.PopReturnsOrIsRefused : Prop :=
  encode .pop = 0x200#12 ∧
  ∀ s : State, s.Inv →
    (s.optr = s.olen → exec .pop s = .next { s with pending := some 0x200#10 }) ∧
    (s.optr ≠ s.olen →
      ∃ (d : Byte) (t : State), s.memRead .obuf s.optr = .ok d ∧ exec .pop s = .next t ∧
        t = { s with optr := s.optr + 1, pending := some (0x100#10 ||| d.setWidth 10) } ∧
        (t.oavail = true ↔ s.optr + 1 ≠ s.olen))

/-- R103: `STAT` returns `STATUS` by the formula of the rule, changes nothing, and in a good state answers one of nine
values. -/
def Obligations.StatReturnsStatus : Prop :=
  encode .stat = 0x300#12 ∧
  (∀ s : State, exec .stat s = .next { s with pending := some (0x100#10 |||
    ((if s.ilen = 0 then 8#10 else 0#10) ||| (if s.ilen = s.cfg.ibufDepth then 4#10 else 0#10) |||
      (if s.err = true then 2#10 else 0#10) ||| (if s.optr < s.olen then 1#10 else 0#10))) }) ∧
  (∀ s : State, s.Inv →
    s.status ∈ [0x00#8, 0x01#8, 0x02#8, 0x04#8, 0x05#8, 0x06#8, 0x08#8, 0x09#8, 0x0A#8])

/-- R104, R25: `CLR` empties both buffers and clears `ERR`; but for its own response and the host's record the state
is the reset state. -/
def Obligations.ClrLeavesTheResetState : Prop :=
  encode .clr = 0x400#12 ∧
  ∀ s : State, ∃ t, exec .clr s = .next t ∧
    t = { State.resetAt s.cfg with pending := some 0x000#10, inputs := s.inputs, responses := s.responses } ∧
    (1 ≤ s.cfg.ibufDepth → t.status = 0x08#8)

/-- Frame of the commands that store nothing, `NOP`, `STAT`, `POP` (refused or not): every byte of every
space reads as before, and nothing but `OPTR` (by `POP`) and the response in flight changes. -/
def Obligations.FrameOfNopStatPop : Prop :=
  ∀ (i : Instr) (s t : State), i = .nop ∨ i = .stat ∨ i = .pop → exec i s = .next t →
    (∀ (a : Space) (k : Nat), t.memRead a k = s.memRead a k) ∧ s.SameHost t ∧ t.ilen = s.ilen ∧ t.olen = s.olen ∧
    t.err = s.err ∧ (i ≠ .pop → t.optr = s.optr)

/-- Frame of `PUSH`: the one byte it stores is entry `ILEN` of `IBUF`; every other byte of every space reads as
before, and `OBUF`, `OLEN`, `OPTR`, `ERR` are unchanged. -/
def Obligations.FrameOfPush : Prop :=
  ∀ (imm8 : Byte) (s t : State), exec (.push imm8) s = .next t →
    (∀ (a : Space) (k : Nat), ¬(a = .ibuf ∧ k = s.ilen) → t.memRead a k = s.memRead a k) ∧
    s.SameHost t ∧ t.obuf = s.obuf ∧ t.optr = s.optr ∧ t.err = s.err

/-- Frame of the run commands and of `CLR`: the entries stored to are the first `OLEN` of `OBUF`; no other entry of
`OBUF` and no entry of `IBUF` is valid afterwards (R12, R90), the `ROM` reads as before, and the parameter and the
host's drive and record are unchanged. -/
def Obligations.FrameOfRunCommandsAndClr : Prop :=
  ∀ (i : Instr) (s t : State), i = .enc ∨ i = .encr ∨ i = .dec ∨ i = .decr ∨ i = .clr → exec i s = .next t →
    (∀ k, t.memRead .rom k = s.memRead .rom k) ∧
    (∀ k, t.memRead .ibuf k = .error (.entryNotValid .ibuf k)) ∧
    (∀ k, t.olen ≤ k → t.memRead .obuf k = .error (.entryNotValid .obuf k)) ∧
    s.SameHost t ∧ t.optr = 0

/-- R138: `PUSH` and `POP` in either order leave the same block and get the same responses. -/
def Obligations.PushAndPopAreIndependent : Prop :=
  ∀ (s : State) (imm8 : Byte), s.Inv →
    ∃ a b c d : State, exec (.push imm8) s = .next a ∧ exec .pop a = .next b ∧
      exec .pop s = .next c ∧ exec (.push imm8) c = .next d ∧
      b.SameBlock d ∧ a.pending = d.pending ∧ b.pending = c.pending

/-- R11, R136: the input message is what has been pushed, in push order, and every push is answered `OK` while the
message fits. -/
def Obligations.PushesBuildTheMessage : Prop :=
  ∀ (bs : List Byte) (s : State), s.pending = none → s.ilen + bs.length ≤ s.cfg.ibufDepth →
    execAll (pushb bs) s = some (List.replicate bs.length 0x000#10, { s with ibuf := s.ibuf ++ bs })

/-- R56, R102: `POPALL` returns what is left of the output message in order, each element once, and its last `POP` is
refused. -/
def Obligations.PopallReturnsTheMessage : Prop :=
  ∀ s : State, s.Inv → s.pending = none →
    execAll (popall s) s =
      some ((s.obuf.drop s.optr).map (fun d => 0x100#10 ||| d.setWidth 10) ++ [0x200#10], { s with optr := s.olen })

/-- R40, R46: commands the host offers one after the other, taking each response, run through the ports as their
meanings one after the other, and the responses arrive in order. The model's own: two edges a command (log 4, log 17,
log 21), and the drive `hostScript` (log 9). -/
def Obligations.HostScriptRunsTheCommands : Prop :=
  ∀ (is : List Instr) (s u : State) (rs : List RspWord) (rest : List Edge),
    s.pending = none → execAll is s = some (rs, u) →
    Host.Core.run core (2 * is.length) { s with inputs := hostScript (is.map encode) ++ rest } =
      .next { u with inputs := rest, responses := s.responses ++ rs }

/-! ### alphabet_lut -/

/-- R64: the forward and inverse maps are mutual inverses; on an upper-case member the second law returns the folded
symbol. That upper-case codes are members is the spec's D9 (log 13). -/
def Obligations.LutMapsAreMutualInverses : Prop :=
  (∀ q : Quantum, lutInv (lutFwd q) = some q) ∧ (∀ (c : Byte) (q : Quantum), lutInv c = some q → lutFwd q = fold c)

/-- R63, R66: `LutInv` returns the quantum whose entry is the folded symbol, which is unique, for exactly 56 of the 256
codes; no code at or above `0x80` is a member. The ASCII codes are the spec's G1 (log 11), and that the 24 upper-case
codes are among the 56 members is the spec's D9 (log 13). -/
def Obligations.LutInvFindsTheFoldedSymbol : Prop :=
  (∀ (c : Byte) (q : Quantum), lutInv c = some q ↔ rom[q.toNat]? = some (fold c)) ∧
  ((List.range 256).filter (fun n => isMember (BitVec.ofNat 8 n))).length = 56 ∧
  (∀ c : Byte, 0x80#8 ≤ c → lutInv c = none)

/-- R62: `Fold` adds `0x20` to the codes `0x41 .. 0x5A`, leaves every other code, and is idempotent. That a decode folds
is the spec's D9 (log 13). -/
def Obligations.FoldIsAsciiLowerCase : Prop :=
  ∀ c : Byte,
    (0x41 ≤ c.toNat → c.toNat ≤ 0x5A → (fold c).toNat = c.toNat + 0x20) ∧
    (c.toNat < 0x41 ∨ 0x5A < c.toNat → fold c = c) ∧ fold (fold c) = fold c

/-! ### The packer datapath -/

/-- R72: the integer form of `PackStd`. -/
def Obligations.PackStdHasIntegerForm : Prop := ∀ B : List Byte, packStd B = packStdInt B

/-- The integer form of `UnpackStd` that R75 gives. -/
def Obligations.UnpackStdHasIntegerForm : Prop := ∀ Q : List Quantum, unpackStd Q = unpackStdInt Q

/-- R73, R76: the length laws of the standard policy, with their tables by residue, and that the results fit the
output buffer. -/
def Obligations.StandardLengthLaws : Prop :=
  (∀ B : List Byte,
    (packStd B).length = ceilDiv (8 * B.length) 5 ∧
    (packStd B).length = 8 * (B.length / 5) + [0, 2, 4, 5, 7].getD (B.length % 5) 0 ∧
    5 * (packStd B).length - 8 * B.length = [0, 2, 4, 1, 3].getD (B.length % 5) 0 ∧
    ∀ c : Config, B.length ≤ c.ibufDepth → (packStd B).length ≤ c.obufDepth) ∧
  (∀ Q : List Quantum,
    (unpackStd Q).length = 5 * Q.length / 8 ∧
    (unpackStd Q).length = 5 * (Q.length / 8) + [0, 0, 1, 1, 2, 3, 3, 4].getD (Q.length % 8) 0 ∧
    5 * Q.length - 8 * (unpackStd Q).length = [0, 5, 2, 7, 4, 1, 6, 3].getD (Q.length % 8) 0 ∧
    ∀ c : Config, Q.length ≤ c.ibufDepth → (unpackStd Q).length ≤ c.obufDepth)

/-- R83: the length laws of the rspamd policy, the same counts as the standard policy, and that the results fit the
output buffer. Rests on the spec's D10, D12 (log 12). -/
def Obligations.RspamdLengthLaws : Prop :=
  (∀ B : List Byte,
    (packRsp B).length = 8 * (B.length / 5) + ceilDiv (8 * (B.length % 5)) 5 ∧
    (packRsp B).length = ceilDiv (8 * B.length) 5 ∧ (packRsp B).length = (packStd B).length ∧
    ∀ c : Config, B.length ≤ c.ibufDepth → (packRsp B).length ≤ c.obufDepth) ∧
  (∀ Q : List Quantum,
    (unpackRsp Q).length = 5 * (Q.length / 8) + 5 * (Q.length % 8) / 8 ∧
    (unpackRsp Q).length = 5 * Q.length / 8 ∧ (unpackRsp Q).length = (unpackStd Q).length ∧
    ∀ c : Config, Q.length ≤ c.ibufDepth → (unpackRsp Q).length ≤ c.obufDepth)

/-- The round trip of R84 under the standard policy. -/
def Obligations.StandardRoundTrip : Prop := ∀ B : List Byte, unpackStd (packStd B) = B

/-- The round trip of R84 under the rspamd policy. Rests on the spec's D10 to D12 (log 12). -/
def Obligations.RspamdRoundTrip : Prop := ∀ B : List Byte, unpackRsp (packRsp B) = B

/-- The converse of R84: packing gives a non-empty quantum sequence back exactly when its length is one an encoder
produces and its dropped bits are zero, under both policies, so not in general; and unpacking under the other policy
does not give the bytes back in general. The rspamd half rests on the spec's D10 to D12 (log 12). -/
def Obligations.CanonicalQuantaRoundTrip : Prop :=
  (∀ (Q : List Quantum) (q : Quantum),
    let drop := 5 * (Q.length + 1) - 8 * (5 * (Q.length + 1) / 8)
    (packStd (unpackStd (Q ++ [q])) = Q ++ [q] ↔
      (Q.length + 1) % 8 ∈ [0, 2, 4, 5, 7] ∧ q.toNat % 2 ^ drop = 0) ∧
    (packRsp (unpackRsp (Q ++ [q])) = Q ++ [q] ↔
      (Q.length + 1) % 8 ∈ [0, 2, 4, 5, 7] ∧ q.toNat < 2 ^ (5 - drop))) ∧
  (∃ Q : List Quantum, packStd (unpackStd Q) ≠ Q ∧ packRsp (unpackRsp Q) ≠ Q) ∧
  (∃ B : List Byte, unpackRsp (packStd B) ≠ B ∧ unpackStd (packRsp B) ≠ B)

/-- `BlockRsp` and `GroupRsp` are inverse on blocks of 1 to 5 bytes (R81, R82), and on full groups of 8 quanta the other
way round too (R81). Rests on the spec's D11, for blocks of 1 to 4 bytes also on its D10, D12 (log 12). -/
def Obligations.BlockAndGroupAreInverse : Prop :=
  (∀ K : List Byte, 1 ≤ K.length → K.length ≤ 5 → groupRsp (blockRsp K) = K) ∧
  (∀ G : List Quantum, G.length = 8 → blockRsp (groupRsp G) = G)

/-- R74: the synthesized bits are zero on encode (low bits of the last quantum under the standard policy, high bits
under rspamd), and the bits dropped on decode, all that R76 and R82 drop, carry no information: two sequences of one
length that agree in the bits kept unpack alike. Under the rspamd policy `F` is the full groups and `G` the trailing
one. The rspamd clauses rest on the spec's D10 to D12 (log 12). -/
def Obligations.PaddingIsZeroAndIgnored : Prop :=
  (∀ (B : List Byte) (q : Quantum), (packStd B).getLast? = some q →
    q.toNat % 2 ^ (5 * (packStd B).length - 8 * B.length) = 0) ∧
  (∀ (B : List Byte) (q : Quantum), (packRsp B).getLast? = some q →
    q.toNat < 2 ^ (5 - (5 * (packRsp B).length - 8 * B.length))) ∧
  (∀ Q Q' : List Quantum, Q'.length = Q.length →
    quantaBe Q >>> (5 * Q.length - 8 * (5 * Q.length / 8)) = quantaBe Q' >>> (5 * Q.length - 8 * (5 * Q.length / 8)) →
    unpackStd Q = unpackStd Q') ∧
  (∀ F G G' : List Quantum, F.length % 8 = 0 → G.length ≤ 7 → G'.length = G.length →
    groupValue G % 2 ^ (8 * (5 * G.length / 8)) = groupValue G' % 2 ^ (8 * (5 * G.length / 8)) →
    unpackRsp (F ++ G) = unpackRsp (F ++ G'))

/-- R35: for a message whose length is a multiple of 5 the rspamd quanta are the standard ones with each run of 8
reversed. The bit order inside an rspamd group is the spec's D11 (log 12). -/
def Obligations.PoliciesReverseEachBlock : Prop :=
  ∀ B : List Byte, B.length % 5 = 0 →
    packRsp B = (List.range (B.length / 5)).flatMap (fun t => (((packStd B).drop (8 * t)).take 8).reverse)

/-- R85: the empty sequence is encoded and decoded as the empty sequence. -/
def Obligations.EmptySequenceIsFixed : Prop :=
  packStd [] = [] ∧ packRsp [] = [] ∧ unpackStd [] = [] ∧ unpackRsp [] = []

/-! ### The run commands -/

/-- R90: `ENC` in every good state, whatever the input message and its length. -/
def Obligations.EncEncodesTheMessage : Prop :=
  encode .enc = 0x800#12 ∧
  ∀ s : State, s.Inv →
    ∃ t, exec .enc s = .next t ∧
      t = { s with obuf := (packStd s.ibuf).map lutFwd, optr := 0, err := false, ibuf := [],
                   pending := some 0x000#10 } ∧
      t.olen = ceilDiv (8 * s.ilen) 5 ∧ t.iempty = true ∧ t.ifull = false ∧ (t.oavail = true ↔ s.ilen ≠ 0)

/-- R91: `ENCR` in every good state. Rests on the spec's D11, for short final blocks also on its D10 (log 12). -/
def Obligations.EncrEncodesTheMessage : Prop :=
  encode .encr = 0xA00#12 ∧
  ∀ s : State, s.Inv →
    ∃ t, exec .encr s = .next t ∧
      t = { s with obuf := (packRsp s.ibuf).map lutFwd, optr := 0, err := false, ibuf := [],
                   pending := some 0x000#10 } ∧
      t.olen = ceilDiv (8 * s.ilen) 5 ∧ t.iempty = true ∧ t.ifull = false ∧ (t.oavail = true ↔ s.ilen ≠ 0)

/-- R95, R96: `DEC` on a message all of whose symbols are members, with the quanta the inverse lookup gives; and on
any other message, DecodeError. Every good state falls under exactly one of the two. -/
def Obligations.DecDecodesOrRaises : Prop :=
  encode .dec = 0x900#12 ∧
  ∀ s : State, s.Inv →
    (∀ Q : List Quantum, s.ibuf.map lutInv = Q.map some →
      exec .dec s = .next { s with obuf := unpackStd Q, optr := 0, err := false, ibuf := [],
                                   pending := some 0x000#10 } ∧
      (unpackStd Q).length = 5 * s.ilen / 8) ∧
    (s.HasNonMember →
      exec .dec s = .next { s with obuf := [], optr := 0, err := true, ibuf := [], pending := some 0x300#10 }) ∧
    (¬s.HasNonMember ↔ ∃ Q : List Quantum, s.ibuf.map lutInv = Q.map some)

/-- R95, R97: `DECR`, by the same validation. Rests on the spec's D11, for trailing groups also on its D12 (log 12). -/
def Obligations.DecrDecodesOrRaises : Prop :=
  encode .decr = 0xB00#12 ∧
  ∀ s : State, s.Inv →
    (∀ Q : List Quantum, s.ibuf.map lutInv = Q.map some →
      exec .decr s = .next { s with obuf := unpackRsp Q, optr := 0, err := false, ibuf := [],
                                    pending := some 0x000#10 } ∧
      (unpackRsp Q).length = 5 * s.ilen / 8) ∧
    (s.HasNonMember →
      exec .decr s = .next { s with obuf := [], optr := 0, err := true, ibuf := [], pending := some 0x300#10 })

/-- R5, R92 (a), R98 (e), R137: the result of a run command is a function of the command and of the input message: of two
good states with the same input message, whatever else differs, both complete with the same result. -/
def Obligations.RunCommandsArePure : Prop :=
  ∀ (i : Instr) (s u : State), i = .enc ∨ i = .encr ∨ i = .dec ∨ i = .decr → s.Inv → u.Inv → u.ibuf = s.ibuf →
    ∃ t v, exec i s = .next t ∧ exec i u = .next v ∧ t.SameBlock v ∧ v.pending = t.pending

/-- R92 (c): every output symbol of an encode is an entry of the `ROM`, a member, and in lower case. -/
def Obligations.EncodersEmitCanonicalSymbols : Prop :=
  ∀ (i : Instr) (s t : State), i = .enc ∨ i = .encr → exec i s = .next t →
    ∀ c ∈ t.obuf, c ∈ rom ∧ isMember c = true ∧ fold c = c

/-- R98 (b): the result of a decode is unchanged when letters of the input are replaced by their other case. Rests on
the spec's D9 (log 13). -/
def Obligations.DecodersIgnoreCase : Prop :=
  ∀ (i : Instr) (s u : State), i = .dec ∨ i = .decr → s.Inv → u.Inv → u.ibuf.map fold = s.ibuf.map fold →
    ∃ t v, exec i s = .next t ∧ exec i u = .next v ∧ t.SameBlock v ∧ v.pending = t.pending

/-- R98 (a): fed the output message of `ENC`, `DEC` answers `OK` and gives the original bytes; the same for `DECR` after
`ENCR`. The second state is any good state, of any instance, whose input message is that output message. The rspamd half
rests on the spec's D10 to D12 (log 12). -/
def Obligations.DecodeUndoesEncode : Prop :=
  ∀ (s t u : State), s.Inv → u.Inv → u.ibuf = t.obuf →
    (exec .enc s = .next t →
      exec .dec u = .next { u with obuf := s.ibuf, optr := 0, err := false, ibuf := [], pending := some 0x000#10 }) ∧
    (exec .encr s = .next t →
      exec .decr u = .next { u with obuf := s.ibuf, optr := 0, err := false, ibuf := [], pending := some 0x000#10 })

/-- R92 (d), R140: on one instance, an encoded message can be pushed back whole and decoded to the original bytes
exactly when its length is at most `floor(5 * IBUF_DEPTH / 8)`; a longer one ends with a refused `PUSH`. The same for
both policies; the rspamd one rests on the spec's D10 to D12 (log 12). -/
def Obligations.RoundTripOnOneInstance : Prop :=
  ∀ (i j : Instr) (s t : State), (i = .enc ∧ j = .dec) ∨ (i = .encr ∧ j = .decr) → s.Inv → exec i s = .next t →
    (s.ilen ≤ 5 * s.cfg.ibufDepth / 8 →
      execAll (pushb t.obuf ++ [j]) { t with pending := none } =
        some (List.replicate (t.olen + 1) 0x000#10,
          { s with ibuf := [], obuf := s.ibuf, optr := 0, err := false, pending := none })) ∧
    (5 * s.cfg.ibufDepth / 8 < s.ilen →
      ∃ rs u, execAll (pushb t.obuf) { t with pending := none } = some (rs, u) ∧ rs.getLast? = some 0x200#10)
end

