-- ==== Sys2Proof/Laws/Lut.lean ====
section
/-! SUPPORT. One specification lemma per function of alphabet_lut. -/

namespace Sys2Proof.Machine

/-- Every entry of the table is a member in lower case (spec rules R60, R61). -/
theorem rom_entries_canonical : ∀ c ∈ rom, isMember c = true ∧ fold c = c := by decide

theorem lutFwd_mem_rom (q : Quantum) : lutFwd q ∈ rom := List.getElem_mem _

/-- The inverse lookup undoes the forward one (R64). -/
theorem lutInv_of_lutFwd : ∀ q : Quantum, lutInv (lutFwd q) = some q := by decide

/-- The inverse lookup sees a symbol only through the fold (R63). -/
theorem lutInv_congr {c d : Byte} (h : fold c = fold d) : lutInv c = lutInv d := by
  simp only [lutInv, h]

/-- `Validate` is the lookup of every symbol (R95). -/
theorem validate_eq_some_iff {m : List Byte} {Q : List Quantum} :
    validate m = some Q ↔ m.map lutInv = Q.map some := by
  induction m generalizing Q with
  | nil => cases Q <;> simp [validate]
  | cons c cs ih =>
    cases hc : lutInv c with
    | none => cases Q <;> simp [validate, hc]
    | some q =>
      cases Q with
      | nil => cases hv : validate cs <;> simp [validate, hc, hv]
      | cons q' Q' =>
        rw [List.map_cons, List.map_cons, hc, List.cons.injEq, ← ih (Q := Q')]
        cases hv : validate cs <;> simp [validate, hc, hv]

/-- A message is invalid exactly when some symbol of it is not a member (R95). -/
theorem validate_eq_none_iff {m : List Byte} : validate m = none ↔ ∃ c ∈ m, lutInv c = none := by
  induction m with
  | nil => simp [validate]
  | cons c cs ih =>
    cases hc : lutInv c with
    | none => simp [validate, hc]
    | some q => cases hv : validate cs <;> simp_all [validate]

/-- A valid message has as many quanta as symbols. -/
theorem validate_length {m : List Byte} {Q : List Quantum} (h : validate m = some Q) : Q.length = m.length := by
  simpa using (congrArg List.length (validate_eq_some_iff.1 h)).symm

/-- The symbols of an encode are looked up to the quanta they came from. -/
theorem validate_map_lutFwd (Q : List Quantum) : validate (Q.map lutFwd) = some Q :=
  validate_eq_some_iff.2 (by simp [lutInv_of_lutFwd])

/-- Validation sees a message only through the fold (R98 (b)). -/
theorem validate_congr {m n : List Byte} (h : m.map fold = n.map fold) : validate m = validate n := by
  induction m generalizing n with
  | nil => cases n <;> simp_all
  | cons c cs ih =>
    cases n with
    | nil => simp at h
    | cons d ds =>
      simp only [List.map_cons, List.cons.injEq] at h
      simp only [validate, lutInv_congr h.1, ih h.2]

end Sys2Proof.Machine
end

