-- ==== Sys2Proof/Laws/State.lean ====
section
/-! SUPPORT. One lemma per field per update of the state, so that no proof unfolds a record update. -/

namespace Sys2Proof.Machine

/-! ### `appendInput` -/

@[simp] theorem State.appendInput_cfg (b : Byte) (s : State) : (s.appendInput b).cfg = s.cfg := rfl
@[simp] theorem State.appendInput_ibuf (b : Byte) (s : State) : (s.appendInput b).ibuf = s.ibuf ++ [b] := rfl
@[simp] theorem State.appendInput_obuf (b : Byte) (s : State) : (s.appendInput b).obuf = s.obuf := rfl
@[simp] theorem State.appendInput_optr (b : Byte) (s : State) : (s.appendInput b).optr = s.optr := rfl
@[simp] theorem State.appendInput_err (b : Byte) (s : State) : (s.appendInput b).err = s.err := rfl
@[simp] theorem State.appendInput_pending (b : Byte) (s : State) : (s.appendInput b).pending = s.pending := rfl
@[simp] theorem State.appendInput_inputs (b : Byte) (s : State) : (s.appendInput b).inputs = s.inputs := rfl
@[simp] theorem State.appendInput_responses (b : Byte) (s : State) : (s.appendInput b).responses = s.responses := rfl

/-! ### `advanceOptr` -/

@[simp] theorem State.advanceOptr_cfg (s : State) : s.advanceOptr.cfg = s.cfg := rfl
@[simp] theorem State.advanceOptr_ibuf (s : State) : s.advanceOptr.ibuf = s.ibuf := rfl
@[simp] theorem State.advanceOptr_obuf (s : State) : s.advanceOptr.obuf = s.obuf := rfl
@[simp] theorem State.advanceOptr_optr (s : State) : s.advanceOptr.optr = s.optr + 1 := rfl
@[simp] theorem State.advanceOptr_err (s : State) : s.advanceOptr.err = s.err := rfl
@[simp] theorem State.advanceOptr_pending (s : State) : s.advanceOptr.pending = s.pending := rfl
@[simp] theorem State.advanceOptr_inputs (s : State) : s.advanceOptr.inputs = s.inputs := rfl
@[simp] theorem State.advanceOptr_responses (s : State) : s.advanceOptr.responses = s.responses := rfl

/-! ### `putResult` -/

@[simp] theorem State.putResult_cfg (m : List Byte) (s : State) : (s.putResult m).cfg = s.cfg := rfl
@[simp] theorem State.putResult_ibuf (m : List Byte) (s : State) : (s.putResult m).ibuf = [] := rfl
@[simp] theorem State.putResult_obuf (m : List Byte) (s : State) : (s.putResult m).obuf = m := rfl
@[simp] theorem State.putResult_optr (m : List Byte) (s : State) : (s.putResult m).optr = 0 := rfl
@[simp] theorem State.putResult_err (m : List Byte) (s : State) : (s.putResult m).err = false := rfl
@[simp] theorem State.putResult_pending (m : List Byte) (s : State) : (s.putResult m).pending = s.pending := rfl
@[simp] theorem State.putResult_inputs (m : List Byte) (s : State) : (s.putResult m).inputs = s.inputs := rfl
@[simp] theorem State.putResult_responses (m : List Byte) (s : State) : (s.putResult m).responses = s.responses := rfl

/-! ### `clearAll` -/

@[simp] theorem State.clearAll_cfg (s : State) : s.clearAll.cfg = s.cfg := rfl
@[simp] theorem State.clearAll_ibuf (s : State) : s.clearAll.ibuf = [] := rfl
@[simp] theorem State.clearAll_obuf (s : State) : s.clearAll.obuf = [] := rfl
@[simp] theorem State.clearAll_optr (s : State) : s.clearAll.optr = 0 := rfl
@[simp] theorem State.clearAll_err (s : State) : s.clearAll.err = false := rfl
@[simp] theorem State.clearAll_pending (s : State) : s.clearAll.pending = s.pending := rfl
@[simp] theorem State.clearAll_inputs (s : State) : s.clearAll.inputs = s.inputs := rfl
@[simp] theorem State.clearAll_responses (s : State) : s.clearAll.responses = s.responses := rfl

/-! ### `failRun` -/

@[simp] theorem State.failRun_cfg (s : State) : s.failRun.cfg = s.cfg := rfl
@[simp] theorem State.failRun_ibuf (s : State) : s.failRun.ibuf = [] := rfl
@[simp] theorem State.failRun_obuf (s : State) : s.failRun.obuf = [] := rfl
@[simp] theorem State.failRun_optr (s : State) : s.failRun.optr = 0 := rfl
@[simp] theorem State.failRun_err (s : State) : s.failRun.err = true := rfl
@[simp] theorem State.failRun_pending (s : State) : s.failRun.pending = s.pending := rfl
@[simp] theorem State.failRun_inputs (s : State) : s.failRun.inputs = s.inputs := rfl
@[simp] theorem State.failRun_responses (s : State) : s.failRun.responses = s.responses := rfl

/-! ### `resetBlock` -/

@[simp] theorem State.resetBlock_cfg (s : State) : s.resetBlock.cfg = s.cfg := rfl
@[simp] theorem State.resetBlock_ibuf (s : State) : s.resetBlock.ibuf = [] := rfl
@[simp] theorem State.resetBlock_obuf (s : State) : s.resetBlock.obuf = [] := rfl
@[simp] theorem State.resetBlock_optr (s : State) : s.resetBlock.optr = 0 := rfl
@[simp] theorem State.resetBlock_err (s : State) : s.resetBlock.err = false := rfl
@[simp] theorem State.resetBlock_pending (s : State) : s.resetBlock.pending = none := rfl
@[simp] theorem State.resetBlock_inputs (s : State) : s.resetBlock.inputs = s.inputs := rfl
@[simp] theorem State.resetBlock_responses (s : State) : s.resetBlock.responses = s.responses := rfl

/-! ### `respond` -/

@[simp] theorem State.respond_cfg (c : ResponseCode) (d : Byte) (s : State) : (s.respond c d).cfg = s.cfg := rfl
@[simp] theorem State.respond_ibuf (c : ResponseCode) (d : Byte) (s : State) : (s.respond c d).ibuf = s.ibuf := rfl
@[simp] theorem State.respond_obuf (c : ResponseCode) (d : Byte) (s : State) : (s.respond c d).obuf = s.obuf := rfl
@[simp] theorem State.respond_optr (c : ResponseCode) (d : Byte) (s : State) : (s.respond c d).optr = s.optr := rfl
@[simp] theorem State.respond_err (c : ResponseCode) (d : Byte) (s : State) : (s.respond c d).err = s.err := rfl
@[simp] theorem State.respond_pending (c : ResponseCode) (d : Byte) (s : State) : (s.respond c d).pending = some (rspWord c d) := rfl
@[simp] theorem State.respond_inputs (c : ResponseCode) (d : Byte) (s : State) : (s.respond c d).inputs = s.inputs := rfl
@[simp] theorem State.respond_responses (c : ResponseCode) (d : Byte) (s : State) : (s.respond c d).responses = s.responses := rfl

/-! ### `deliver` -/

@[simp] theorem State.deliver_cfg (r : RspWord) (s : State) : (s.deliver r).cfg = s.cfg := rfl
@[simp] theorem State.deliver_ibuf (r : RspWord) (s : State) : (s.deliver r).ibuf = s.ibuf := rfl
@[simp] theorem State.deliver_obuf (r : RspWord) (s : State) : (s.deliver r).obuf = s.obuf := rfl
@[simp] theorem State.deliver_optr (r : RspWord) (s : State) : (s.deliver r).optr = s.optr := rfl
@[simp] theorem State.deliver_err (r : RspWord) (s : State) : (s.deliver r).err = s.err := rfl
@[simp] theorem State.deliver_pending (r : RspWord) (s : State) : (s.deliver r).pending = none := rfl
@[simp] theorem State.deliver_inputs (r : RspWord) (s : State) : (s.deliver r).inputs = s.inputs := rfl
@[simp] theorem State.deliver_responses (r : RspWord) (s : State) : (s.deliver r).responses = s.responses ++ [r] := rfl

/-! ### `pastEdge` -/

@[simp] theorem State.pastEdge_cfg (s : State) : s.pastEdge.cfg = s.cfg := rfl
@[simp] theorem State.pastEdge_ibuf (s : State) : s.pastEdge.ibuf = s.ibuf := rfl
@[simp] theorem State.pastEdge_obuf (s : State) : s.pastEdge.obuf = s.obuf := rfl
@[simp] theorem State.pastEdge_optr (s : State) : s.pastEdge.optr = s.optr := rfl
@[simp] theorem State.pastEdge_err (s : State) : s.pastEdge.err = s.err := rfl
@[simp] theorem State.pastEdge_pending (s : State) : s.pastEdge.pending = s.pending := rfl
@[simp] theorem State.pastEdge_inputs (s : State) : s.pastEdge.inputs = s.inputs.tail := rfl
@[simp] theorem State.pastEdge_responses (s : State) : s.pastEdge.responses = s.responses := rfl

/-! ### The counters after the updates -/

@[simp] theorem State.ilen_appendInput (b : Byte) (s : State) : (s.appendInput b).ilen = s.ilen + 1 := by
  simp [State.ilen]

@[simp] theorem State.olen_appendInput (b : Byte) (s : State) : (s.appendInput b).olen = s.olen := rfl
@[simp] theorem State.ilen_advanceOptr (s : State) : s.advanceOptr.ilen = s.ilen := rfl
@[simp] theorem State.olen_advanceOptr (s : State) : s.advanceOptr.olen = s.olen := rfl
@[simp] theorem State.ilen_putResult (m : List Byte) (s : State) : (s.putResult m).ilen = 0 := rfl
@[simp] theorem State.olen_putResult (m : List Byte) (s : State) : (s.putResult m).olen = m.length := rfl
@[simp] theorem State.ilen_clearAll (s : State) : s.clearAll.ilen = 0 := rfl
@[simp] theorem State.olen_clearAll (s : State) : s.clearAll.olen = 0 := rfl
@[simp] theorem State.ilen_failRun (s : State) : s.failRun.ilen = 0 := rfl
@[simp] theorem State.olen_failRun (s : State) : s.failRun.olen = 0 := rfl
@[simp] theorem State.ilen_resetBlock (s : State) : s.resetBlock.ilen = 0 := rfl
@[simp] theorem State.olen_resetBlock (s : State) : s.resetBlock.olen = 0 := rfl
@[simp] theorem State.ilen_respond (c : ResponseCode) (d : Byte) (s : State) : (s.respond c d).ilen = s.ilen := rfl
@[simp] theorem State.olen_respond (c : ResponseCode) (d : Byte) (s : State) : (s.respond c d).olen = s.olen := rfl
@[simp] theorem State.ilen_deliver (r : RspWord) (s : State) : (s.deliver r).ilen = s.ilen := rfl
@[simp] theorem State.olen_deliver (r : RspWord) (s : State) : (s.deliver r).olen = s.olen := rfl
@[simp] theorem State.ilen_pastEdge (s : State) : s.pastEdge.ilen = s.ilen := rfl
@[simp] theorem State.olen_pastEdge (s : State) : s.pastEdge.olen = s.olen := rfl

/-! ### The status register is blind to the ports -/

@[simp] theorem State.status_respond (c : ResponseCode) (d : Byte) (s : State) : (s.respond c d).status = s.status := rfl
@[simp] theorem State.status_pastEdge (s : State) : s.pastEdge.status = s.status := rfl

/-- `STATUS[1]` is `ERR` (R16). -/
theorem State.status_bit_one (s : State) : s.status.getLsbD 1 = s.err := by
  simp only [State.status]
  generalize s.iempty = a, s.ifull = b, s.err = c, s.oavail = d
  revert a b c d
  decide

end Sys2Proof.Machine
end

