-- ==== Sys2Proof/Laws/Memory.lean ====
section
/-! SUPPORT. Every operation on the storage keeps its canonical form, and what each leaves readable. -/

namespace Sys2Proof.Machine

theorem Memory.wf_iff (s : State) :
    Memory.wf s = true ↔ s.ilen ≤ s.cfg.ibufDepth ∧ s.olen ≤ s.cfg.obufDepth := by simp [Memory.wf]

/-- The form depends on the storage and the parameter only. -/
theorem Memory.wf_congr {s t : State} (hc : t.cfg = s.cfg) (hi : t.ibuf = s.ibuf) (ho : t.obuf = s.obuf) :
    Memory.wf t = Memory.wf s := by
  unfold Memory.wf State.ilen State.olen
  rw [hc, hi, ho]

theorem Memory.wf_reset : Memory.wf State.reset = true := by decide

/-- The store of `PUSH` completes exactly when the entry exists, and then appends (spec rule R101). -/
theorem storeInput_eq_ok {b : Byte} {s t : State} :
    s.storeInput b = .ok t ↔ s.ilen < s.cfg.ibufDepth ∧ t = s.appendInput b := by
  unfold State.storeInput
  split <;> simp_all [eq_comm]

/-- The store of a run command completes exactly when the entries exist, and then leaves the result (R90). -/
theorem storeResult_eq_ok {m : List Byte} {s t : State} :
    s.storeResult m = .ok t ↔ m.length ≤ s.cfg.obufDepth ∧ t = s.putResult m := by
  unfold State.storeResult
  split <;> simp_all [eq_comm]

theorem Memory.wf_storeInput {b : Byte} {s t : State} (hs : Memory.wf s = true) (h : s.storeInput b = .ok t) :
    Memory.wf t = true := by
  obtain ⟨hlt, rfl⟩ := storeInput_eq_ok.1 h
  rw [Memory.wf_iff] at hs ⊢
  simp only [State.ilen_appendInput, State.olen_appendInput, State.appendInput_cfg]
  omega

theorem Memory.wf_storeResult {m : List Byte} {s t : State} (h : s.storeResult m = .ok t) : Memory.wf t = true := by
  obtain ⟨hle, rfl⟩ := storeResult_eq_ok.1 h
  rw [Memory.wf_iff]
  simpa using hle

theorem Memory.wf_clearAll (s : State) : Memory.wf s.clearAll = true := by simp [Memory.wf_iff]

theorem Memory.wf_failRun (s : State) : Memory.wf s.failRun = true := by simp [Memory.wf_iff]

theorem Memory.wf_resetBlock (s : State) : Memory.wf s.resetBlock = true := by simp [Memory.wf_iff]

theorem Memory.wf_advanceOptr (s : State) : Memory.wf s.advanceOptr = Memory.wf s := rfl

theorem Memory.wf_respond (c : ResponseCode) (d : Byte) (s : State) : Memory.wf (s.respond c d) = Memory.wf s := rfl

theorem Memory.wf_deliver (r : RspWord) (s : State) : Memory.wf (s.deliver r) = Memory.wf s := rfl

theorem Memory.wf_pastEdge (s : State) : Memory.wf s.pastEdge = Memory.wf s := rfl

/-! ### Reads -/

/-- A read sees the storage only. -/
theorem memRead_congr {s t : State} (hi : t.ibuf = s.ibuf) (ho : t.obuf = s.obuf) (a : Space) (k : Nat) :
    t.memRead a k = s.memRead a k := by
  cases a <;> simp only [State.memRead, hi, ho]

/-- A read after `PUSH`'s store: the stored entry reads as the byte. -/
theorem memRead_appendInput_same (b : Byte) (s : State) : (s.appendInput b).memRead .ibuf s.ilen = .ok b := by
  simp [State.memRead, State.ilen]

/-- A read after `PUSH`'s store: every other entry reads as before. -/
theorem memRead_appendInput_other (b : Byte) (s : State) {a : Space} {k : Nat} (h : ¬(a = .ibuf ∧ k = s.ilen)) :
    (s.appendInput b).memRead a k = s.memRead a k := by
  cases a with
  | obuf => rfl
  | rom => rfl
  | ibuf =>
    have hk : k ≠ s.ibuf.length := fun e => h ⟨rfl, e⟩
    simp only [State.memRead, State.appendInput_ibuf]
    rcases Nat.lt_or_gt_of_ne hk with h' | h'
    · rw [List.getElem?_append_left h']
    · rw [List.getElem?_eq_none (by simp; omega), List.getElem?_eq_none (by omega)]

/-- An index at or past `OLEN` reads no entry of `OBUF` (R12). -/
theorem memRead_obuf_past {s : State} {k : Nat} (h : s.olen ≤ k) :
    s.memRead .obuf k = .error (.entryNotValid .obuf k) := by
  simp [State.memRead, List.getElem?_eq_none (show s.obuf.length ≤ k from h)]

/-- An index below `OLEN` reads the entry of `OBUF`. -/
theorem memRead_obuf_valid {s : State} {k : Nat} (h : k < s.olen) :
    s.memRead .obuf k = .ok (s.obuf[k]'h) := by
  simp only [State.memRead, List.getElem?_eq_getElem (show k < s.obuf.length from h)]
  rfl

theorem memRead_obuf_eq_ok {s : State} {k : Nat} {d : Byte} : s.memRead .obuf k = .ok d ↔ s.obuf[k]? = some d := by
  cases h : s.obuf[k]? <;> simp [State.memRead, h]

end Sys2Proof.Machine
end

