-- ==== Sys2Proof/Laws/Packer.lean ====
section
/-! SUPPORT. One specification lemma per function of the packer: the length of a result and what each element is. -/

namespace Sys2Proof.Machine

/-! ### Sequences and values -/

@[simp] theorem bytesBe_length (v n : Nat) : (bytesBe v n).length = n := by simp [bytesBe]

theorem bytesBe_getElem {v n i : Nat} (h : i < (bytesBe v n).length) :
    (bytesBe v n)[i] = BitVec.ofNat 8 (v >>> (8 * (n - 1 - i))) := by simp [bytesBe]

/-- A byte sequence is a number below `2^(8n)` (spec rule R8). -/
theorem be_lt (B : List Byte) : be B < 2 ^ (8 * B.length) := by
  induction B with
  | nil => simp [be]
  | cons b bs ih =>
    have hb := b.isLt
    simp only [be, Nat.shiftLeft_eq, List.length_cons, Nat.mul_add, Nat.mul_one, Nat.pow_add]
    nlinarith

/-- The group value of `m` quanta is a number below `2^(5m)` (R81). -/
theorem groupValue_lt (G : List Quantum) : groupValue G < 2 ^ (5 * G.length) := by
  induction G with
  | nil => simp [groupValue]
  | cons q qs ih =>
    have hq := q.isLt
    simp only [groupValue, Nat.shiftLeft_eq, List.length_cons, Nat.mul_add, Nat.mul_one, Nat.pow_add]
    omega

/-! ### Standard policy -/

theorem packStd_length (B : List Byte) : (packStd B).length = ceilDiv (8 * B.length) 5 := by simp [packStd]

theorem packStd_getElem {B : List Byte} {k : Nat} (h : k < (packStd B).length) :
    (packStd B)[k] = quantumOfBits (stdBit B (5 * k)) (stdBit B (5 * k + 1)) (stdBit B (5 * k + 2))
      (stdBit B (5 * k + 3)) (stdBit B (5 * k + 4)) := by simp [packStd]

theorem unpackStd_length (Q : List Quantum) : (unpackStd Q).length = 5 * Q.length / 8 := by simp [unpackStd]

theorem unpackStd_getElem {Q : List Quantum} {i : Nat} (h : i < (unpackStd Q).length) :
    (unpackStd Q)[i] = byteOfBits (unstdBit Q (8 * i)) (unstdBit Q (8 * i + 1)) (unstdBit Q (8 * i + 2))
      (unstdBit Q (8 * i + 3)) (unstdBit Q (8 * i + 4)) (unstdBit Q (8 * i + 5)) (unstdBit Q (8 * i + 6))
      (unstdBit Q (8 * i + 7)) := by simp [unpackStd]

/-- The bit string is zero past the message (R71). -/
theorem stdBit_past {B : List Byte} {p : Nat} (h : 8 * B.length ≤ p) : stdBit B p = false := by
  have : B[p / 8]? = none := List.getElem?_eq_none (by omega)
  simp [stdBit, this]

theorem quantumOfBits_bit (b4 b3 b2 b1 b0 : Bool) (t : Nat) (ht : t < 5) :
    (quantumOfBits b4 b3 b2 b1 b0).getLsbD (4 - t) = [b4, b3, b2, b1, b0].getD t false := by
  match t, ht with
  | 0, _ => cases b4 <;> cases b3 <;> cases b2 <;> cases b1 <;> cases b0 <;> rfl
  | 1, _ => cases b4 <;> cases b3 <;> cases b2 <;> cases b1 <;> cases b0 <;> rfl
  | 2, _ => cases b4 <;> cases b3 <;> cases b2 <;> cases b1 <;> cases b0 <;> rfl
  | 3, _ => cases b4 <;> cases b3 <;> cases b2 <;> cases b1 <;> cases b0 <;> rfl
  | 4, _ => cases b4 <;> cases b3 <;> cases b2 <;> cases b1 <;> cases b0 <;> rfl

/-- The bit string of the packed quanta is the message's, over the whole of it (R71, R75). -/
theorem unstdBit_packStd {B : List Byte} {p : Nat} (h : p < 5 * (packStd B).length) :
    unstdBit (packStd B) p = stdBit B p := by
  have hk : p / 5 < (packStd B).length := by omega
  have hp : p = 5 * (p / 5) + p % 5 := by omega
  simp only [unstdBit, List.getElem?_eq_getElem hk, packStd_getElem hk]
  rw [quantumOfBits_bit _ _ _ _ _ _ (Nat.mod_lt _ (by decide))]
  have h5 : p % 5 < 5 := Nat.mod_lt _ (by decide)
  generalize p % 5 = t at *
  generalize p / 5 = k at *
  subst hp
  match t, h5 with
  | 0, _ => rfl
  | 1, _ => rfl
  | 2, _ => rfl
  | 3, _ => rfl
  | 4, _ => rfl

/-- A byte is put together from its own bits, most significant first (R32). -/
theorem byteOfBits_getLsbD : ∀ b : Byte,
    byteOfBits (b.getLsbD 7) (b.getLsbD 6) (b.getLsbD 5) (b.getLsbD 4) (b.getLsbD 3) (b.getLsbD 2) (b.getLsbD 1)
      (b.getLsbD 0) = b := by decide

/-! ### Rspamd policy -/

theorem blockRsp_length (K : List Byte) : (blockRsp K).length = ceilDiv (8 * K.length) 5 := by simp [blockRsp]

theorem blockRsp_getElem {K : List Byte} {j : Nat} (h : j < (blockRsp K).length) :
    (blockRsp K)[j] = quantumAt (be K) j := by simp [blockRsp]

theorem groupRsp_length (G : List Quantum) : (groupRsp G).length = 5 * G.length / 8 := by simp [groupRsp]

/-- Cutting from the front: the first part, then the parts of the rest (R36, R77, R81). -/
theorem flatMap_part_cons {α β : Type} (n : Nat) (hn : 0 < n) (f : List α → List β) (l : List α) (hl : l ≠ []) :
    (List.range (ceilDiv l.length n)).flatMap (fun t => f (part n l t)) =
      f (l.take n) ++ (List.range (ceilDiv (l.drop n).length n)).flatMap (fun t => f (part n (l.drop n) t)) := by
  have hpos : 0 < l.length := List.length_pos_iff.2 hl
  have hc : ceilDiv l.length n = ceilDiv (l.drop n).length n + 1 := by
    simp only [ceilDiv, List.length_drop]
    rcases Nat.lt_or_ge l.length n with h | h
    · rw [Nat.sub_eq_zero_of_le h.le, Nat.zero_add, Nat.div_eq_of_lt (by omega : n - 1 < n)]
      exact Nat.div_eq_of_lt_le (by omega) (by omega)
    · rw [show l.length + (n - 1) = l.length - n + (n - 1) + n by omega, Nat.add_div_right _ hn]
  rw [hc, List.range_succ_eq_map, List.flatMap_cons, List.flatMap_map]
  congr 1
  refine List.flatMap_congr fun t _ => ?_
  simp only [part, List.drop_drop]
  rw [Nat.mul_succ, Nat.add_comm]

theorem packRsp_nil : packRsp [] = [] := rfl

theorem packRsp_cons {B : List Byte} (h : B ≠ []) : packRsp B = blockRsp (B.take 5) ++ packRsp (B.drop 5) :=
  flatMap_part_cons 5 (by decide) blockRsp B h

theorem unpackRsp_nil : unpackRsp [] = [] := rfl

theorem unpackRsp_cons {Q : List Quantum} (h : Q ≠ []) :
    unpackRsp Q = groupRsp (Q.take 8) ++ unpackRsp (Q.drop 8) :=
  flatMap_part_cons 8 (by decide) groupRsp Q h

theorem packRsp_length (B : List Byte) : (packRsp B).length = ceilDiv (8 * B.length) 5 := by
  induction hn : B.length using Nat.strong_induction_on generalizing B with
  | _ n ih =>
    rcases eq_or_ne B [] with rfl | hB
    · subst hn; rfl
    · have hpos := List.length_pos_iff.2 hB
      rw [packRsp_cons hB, List.length_append, blockRsp_length, List.length_take,
        ih (n - 5) (by omega) (B.drop 5) (by rw [List.length_drop, hn])]
      simp only [ceilDiv]
      omega

theorem unpackRsp_length (Q : List Quantum) : (unpackRsp Q).length = 5 * Q.length / 8 := by
  induction hn : Q.length using Nat.strong_induction_on generalizing Q with
  | _ n ih =>
    rcases eq_or_ne Q [] with rfl | hQ
    · subst hn; rfl
    · have hpos := List.length_pos_iff.2 hQ
      rw [unpackRsp_cons hQ, List.length_append, groupRsp_length, List.length_take,
        ih (n - 8) (by omega) (Q.drop 8) (by rw [List.length_drop, hn])]
      omega

/-! ### The length laws of R83 -/

theorem packRspCount_eq (n : Nat) : packRspCount n = ceilDiv (8 * n) 5 := by
  simp only [packRspCount, ceilDiv]
  omega

theorem unpackRspCount_eq (L : Nat) : unpackRspCount L = 5 * L / 8 := by
  simp only [unpackRspCount]
  omega

theorem packRsp_length_eq_count (B : List Byte) : (packRsp B).length = packRspCount B.length :=
  (packRsp_length B).trans (packRspCount_eq B.length).symm

theorem unpackRsp_length_eq_count (Q : List Quantum) : (unpackRsp Q).length = unpackRspCount Q.length :=
  (unpackRsp_length Q).trans (unpackRspCount_eq Q.length).symm

theorem packRsp_fits {B : List Byte} {c : Config} (h : B.length ≤ c.ibufDepth) : (packRsp B).length ≤ c.obufDepth := by
  simp only [packRsp_length, Config.obufDepth, ceilDiv]
  omega

theorem unpackRsp_fits {Q : List Quantum} {c : Config} (h : Q.length ≤ c.ibufDepth) :
    (unpackRsp Q).length ≤ c.obufDepth := by
  simp only [unpackRsp_length, Config.obufDepth, ceilDiv]
  omega

/-! ### By policy -/

theorem pack_length (p : Policy) (B : List Byte) : (pack p B).length = ceilDiv (8 * B.length) 5 := by
  cases p with
  | standard => exact packStd_length B
  | rspamd => exact packRsp_length B

theorem unpack_length (p : Policy) (Q : List Quantum) : (unpack p Q).length = 5 * Q.length / 8 := by
  cases p with
  | standard => exact unpackStd_length Q
  | rspamd => exact unpackRsp_length Q

end Sys2Proof.Machine
end

