-- ==== Sys2Proof/Laws/Commands.lean ====
section
/-! SUPPORT. Everything a command can do, said once: if `exec` answers a next state, it is one of these. -/

namespace Sys2Proof.Machine

theorem finish_eq_next {c : ResponseCode} {d : Byte} {x : Except Fault State} {t : State} :
    finish c d x = .next t ↔ ∃ u, x = .ok u ∧ t = u.respond c d := by
  cases x <;> simp [finish, eq_comm]

theorem refuse_eq_next {s t : State} : refuse s = .next t ↔ t = s.respond .refused 0x00#8 := by
  simp [refuse, eq_comm]

theorem raiseDecodeError_eq_next {s t : State} :
    raiseDecodeError s = .next t ↔ t = s.failRun.respond .decerr 0x00#8 := by simp [raiseDecodeError, eq_comm]

theorem execPush_eq_next {b : Byte} {s t : State} :
    execPush b s = .next t ↔
      (s.ilen = s.cfg.ibufDepth ∧ t = s.respond .refused 0x00#8) ∨
      (s.ilen < s.cfg.ibufDepth ∧ t = (s.appendInput b).respond .ok 0x00#8) := by
  unfold execPush
  split <;> rename_i h
  · simp [refuse_eq_next, h]
  · simp only [finish_eq_next, storeInput_eq_ok, pushOperand, h, false_and, false_or]
    exact ⟨fun ⟨u, ⟨h₁, h₂⟩, h₃⟩ => ⟨h₁, h₂ ▸ h₃⟩, fun ⟨h₁, h₂⟩ => ⟨_, ⟨h₁, rfl⟩, h₂⟩⟩

theorem execPop_eq_next {s t : State} :
    execPop s = .next t ↔
      (s.optr = s.olen ∧ t = s.respond .refused 0x00#8) ∨
      (∃ d, s.obuf[s.optr]? = some d ∧ t = s.advanceOptr.respond .data d) := by
  unfold execPop
  split <;> rename_i h
  · have hn : s.obuf[s.optr]? = none := List.getElem?_eq_none (by rw [h]; exact Nat.le_refl _)
    simp [refuse_eq_next, h]
    intro d hd
    rw [h] at hn
    simp [hn] at hd
  · simp only [State.nextOutput, h, false_and, false_or]
    cases hd : s.obuf[s.optr]? <;> simp [State.memRead, hd, eq_comm]

theorem runEncode_eq_next {p : Policy} {s t : State} :
    runEncode p s = .next t ↔
      (encodeMessage p s.ibuf).length ≤ s.cfg.obufDepth ∧
        t = (s.putResult (encodeMessage p s.ibuf)).respond .ok 0x00#8 := by
  simp only [runEncode, State.inputMessage, finish_eq_next, storeResult_eq_ok]
  exact ⟨fun ⟨u, ⟨h₁, h₂⟩, h₃⟩ => ⟨h₁, h₂ ▸ h₃⟩, fun ⟨h₁, h₂⟩ => ⟨_, ⟨h₁, rfl⟩, h₂⟩⟩

theorem runDecode_eq_next {p : Policy} {s t : State} :
    runDecode p s = .next t ↔
      (validate s.ibuf = none ∧ t = s.failRun.respond .decerr 0x00#8) ∨
      (∃ Q, validate s.ibuf = some Q ∧ (unpack p Q).length ≤ s.cfg.obufDepth ∧
        t = (s.putResult (unpack p Q)).respond .ok 0x00#8) := by
  simp only [runDecode, State.inputQuanta, State.inputMessage]
  cases hv : validate s.ibuf with
  | none => simp [raiseDecodeError_eq_next]
  | some Q =>
    simp only [finish_eq_next, storeResult_eq_ok, reduceCtorEq, false_and, false_or, Option.some.injEq]
    exact ⟨fun ⟨u, ⟨h₁, h₂⟩, h₃⟩ => ⟨Q, rfl, h₁, h₂ ▸ h₃⟩,
      fun ⟨_, hQ, h₁, h₂⟩ => hQ ▸ ⟨_, ⟨h₁, rfl⟩, h₂⟩⟩

/-- What a command that answers a next state did. -/
def Did (i : Instr) (s t : State) : Prop :=
  match i with
  | .nop => t = s.respond .ok 0x00#8
  | .push b =>
    (s.ilen = s.cfg.ibufDepth ∧ t = s.respond .refused 0x00#8) ∨
    (s.ilen < s.cfg.ibufDepth ∧ t = (s.appendInput b).respond .ok 0x00#8)
  | .pop =>
    (s.optr = s.olen ∧ t = s.respond .refused 0x00#8) ∨
    (∃ d, s.obuf[s.optr]? = some d ∧ t = s.advanceOptr.respond .data d)
  | .stat => t = s.respond .data s.status
  | .clr => t = s.clearAll.respond .ok 0x00#8
  | .enc => (encodeMessage .standard s.ibuf).length ≤ s.cfg.obufDepth ∧
      t = (s.putResult (encodeMessage .standard s.ibuf)).respond .ok 0x00#8
  | .encr => (encodeMessage .rspamd s.ibuf).length ≤ s.cfg.obufDepth ∧
      t = (s.putResult (encodeMessage .rspamd s.ibuf)).respond .ok 0x00#8
  | .dec => (validate s.ibuf = none ∧ t = s.failRun.respond .decerr 0x00#8) ∨
      (∃ Q, validate s.ibuf = some Q ∧ (unpackStd Q).length ≤ s.cfg.obufDepth ∧
        t = (s.putResult (unpackStd Q)).respond .ok 0x00#8)
  | .decr => (validate s.ibuf = none ∧ t = s.failRun.respond .decerr 0x00#8) ∨
      (∃ Q, validate s.ibuf = some Q ∧ (unpackRsp Q).length ≤ s.cfg.obufDepth ∧
        t = (s.putResult (unpackRsp Q)).respond .ok 0x00#8)

/-- The inversion lemma of `exec`. -/
theorem exec_eq_next {i : Instr} {s t : State} : exec i s = .next t ↔ Did i s t := by
  cases i with
  | nop => simp [exec, execNop, Did, eq_comm]
  | push b => exact execPush_eq_next
  | pop => exact execPop_eq_next
  | stat => simp [exec, execStat, Did, eq_comm]
  | clr => simp [exec, execClr, Did, eq_comm]
  | enc => exact runEncode_eq_next
  | dec => exact runDecode_eq_next
  | encr => exact runEncode_eq_next
  | decr => exact runDecode_eq_next

/-- The result of an encode of a message that fits the input buffer fits the output buffer (spec rules R6, R73, R83). -/
theorem encodeMessage_fits (p : Policy) {m : List Byte} {c : Config} (h : m.length ≤ c.ibufDepth) :
    (encodeMessage p m).length ≤ c.obufDepth := by
  simp only [encodeMessage, List.length_map, pack_length, Config.obufDepth, ceilDiv]
  omega

/-- The result of a decode of a message that fits the input buffer fits the output buffer (R76, R83). -/
theorem unpack_fits (p : Policy) {Q : List Quantum} {c : Config} (h : Q.length ≤ c.ibufDepth) :
    (unpack p Q).length ≤ c.obufDepth := by
  simp only [unpack_length, Config.obufDepth, ceilDiv]
  omega

/-- No command writes the parameter, the host's drive or its record, and every command leaves a response. -/
theorem exec_host {i : Instr} {s t : State} (h : exec i s = .next t) : s.SameHost t ∧ ∃ r, t.pending = some r := by
  rw [exec_eq_next] at h
  cases i with
  | nop => subst h; exact ⟨⟨rfl, rfl, rfl⟩, _, rfl⟩
  | push b => rcases h with ⟨_, rfl⟩ | ⟨_, rfl⟩ <;> exact ⟨⟨rfl, rfl, rfl⟩, _, rfl⟩
  | pop => rcases h with ⟨_, rfl⟩ | ⟨_, _, rfl⟩ <;> exact ⟨⟨rfl, rfl, rfl⟩, _, rfl⟩
  | stat => subst h; exact ⟨⟨rfl, rfl, rfl⟩, _, rfl⟩
  | clr => subst h; exact ⟨⟨rfl, rfl, rfl⟩, _, rfl⟩
  | enc => obtain ⟨_, rfl⟩ := h; exact ⟨⟨rfl, rfl, rfl⟩, _, rfl⟩
  | encr => obtain ⟨_, rfl⟩ := h; exact ⟨⟨rfl, rfl, rfl⟩, _, rfl⟩
  | dec => rcases h with ⟨_, rfl⟩ | ⟨_, _, _, rfl⟩ <;> exact ⟨⟨rfl, rfl, rfl⟩, _, rfl⟩
  | decr => rcases h with ⟨_, rfl⟩ | ⟨_, _, _, rfl⟩ <;> exact ⟨⟨rfl, rfl, rfl⟩, _, rfl⟩

end Sys2Proof.Machine
end

