-- ==== Sys2Proof/Laws/PerInstr.lean ====
section
/-! SUPPORT. Statements about every command as syntax, one lemma per constructor. -/

/-- A well-formed command's word decodes to it (spec rules R51, R53). -/
def Sys2Proof.Laws.RoundTrip.Statement (i : Sys2Proof.Instr) : Prop :=
  i.wellFormed = true → Sys2Proof.decode (Sys2Proof.encode i) = .ok i

namespace Sys2Proof.Laws.RoundTrip

theorem nop : Statement .nop := fun _ => rfl

theorem push (imm8 : Sys2Proof.Byte) : Statement (.push imm8) := by
  intro _
  have ho : Sys2Proof.opcField (Sys2Proof.encode (.push imm8)) = 0x1#4 := by revert imm8; decide
  have hi : Sys2Proof.immField (Sys2Proof.encode (.push imm8)) = imm8 := by revert imm8; decide
  simp [Sys2Proof.decode, ho, hi]

theorem pop : Statement .pop := fun _ => rfl
theorem stat : Statement .stat := fun _ => rfl
theorem clr : Statement .clr := fun _ => rfl
theorem enc : Statement .enc := fun _ => rfl
theorem dec : Statement .dec := fun _ => rfl
theorem encr : Statement .encr := fun _ => rfl
theorem decr : Statement .decr := fun _ => rfl

end Sys2Proof.Laws.RoundTrip
end

