-- ==== Sys2Proof/Laws/Port.lean ====
section
/-! SUPPORT. Everything a step can do, said once (spec rules R45, R46, R130). -/

namespace Sys2Proof.Machine

theorem acceptWord_ok {w : CmdWord} {i : Instr} (h : decode w = .ok i) (s : State) : acceptWord w s = exec i s := by
  simp [acceptWord, h]

theorem acceptWord_error {w : CmdWord} {why : ReservedWord} (h : decode w = .error why) (s : State) :
    acceptWord w s = refuse s := by simp [acceptWord, h, execReserved]

/-- The inversion lemma of `step`: the host does nothing more; or reset; or a command is accepted; or a response is
delivered; or nothing happens at the edge. -/
theorem step_eq_next {s t : State} (h : step s = .next t) :
    (s.inputs = [] ∧ t = s) ∨
    ∃ e rest, s.inputs = e :: rest ∧
      ((e.rst = true ∧ t = s.pastEdge.resetBlock) ∨
       (e.rst = false ∧ s.pending = none ∧ e.cmdValid = true ∧ acceptWord e.cmd s.pastEdge = .next t) ∨
       (e.rst = false ∧ (∃ r, s.pending = some r ∧ e.rspReady = true ∧ t = s.pastEdge.deliver r)) ∨
       (e.rst = false ∧ (s.pending = none ∧ e.cmdValid = false ∨ s.pending ≠ none ∧ e.rspReady = false) ∧
         t = s.pastEdge)) := by
  unfold step stepEdge at h
  split at h
  · rename_i hi
    exact .inl ⟨hi, by simpa using h.symm⟩
  · rename_i e rest hi
    refine .inr ⟨e, rest, hi, ?_⟩
    unfold clockEdge at h
    cases hr : e.rst with
    | true => exact .inl ⟨rfl, by simpa [hr] using h.symm⟩
    | false =>
      cases hp : s.pending with
      | none =>
        cases hv : e.cmdValid with
        | true => exact .inr (.inl ⟨rfl, rfl, rfl, by simpa [hr, hp, hv, State.accepts, State.cmdReady] using h⟩)
        | false =>
          exact .inr (.inr (.inr ⟨rfl, .inl ⟨rfl, rfl⟩, by
            simpa [hr, hp, hv, State.accepts, State.delivers, State.rspValid, eq_comm] using h⟩))
      | some r =>
        cases hy : e.rspReady with
        | true =>
          exact .inr (.inr (.inl ⟨rfl, r, rfl, rfl, by
            simpa [hr, hp, hy, State.accepts, State.cmdReady, State.delivers, State.rspValid, eq_comm] using h⟩))
        | false =>
          exact .inr (.inr (.inr ⟨rfl, .inr ⟨by simp, rfl⟩, by
            simpa [hr, hp, hy, State.accepts, State.cmdReady, State.delivers, State.rspValid, eq_comm] using h⟩))

/-- A word placed by `withFetchWord` is the one the next step accepts. -/
theorem step_withFetchWord {s : State} {nbits w : Nat} {c : CmdWord} (hw : tableWord nbits w = some c) :
    step (s.withFetchWord nbits w) = acceptWord c (s.withFetchWord nbits w).pastEdge := by
  cases hp : s.pending <;>
    simp [step, stepEdge, State.withFetchWord, State.offerWord, hw, clockEdge, Edge.offer, State.accepts,
      State.cmdReady, hp]

end Sys2Proof.Machine
end

