-- ==== Sys2Proof/Tests/Slice0.lean ====
section
/-! SUPPORT. The model's own tests, and for every statement of Obligations.lean that has hypotheses a concrete state
and operands that meet them. Expected values are the spec's: the words of R51, and the vectors of 95_test_vectors.md,
named by their ids (S, V, X). -/

namespace Sys2Proof.Tests

open Sys2Proof Sys2Proof.Machine

/-! ### Helpers -/

/-- An idle block of depth 16 with the given block state, the host doing nothing. -/
def blk (ibuf obuf : List Byte) (optr : Nat) (err : Bool) : State :=
  { State.resetAt { ibufDepth := 16 } with ibuf := ibuf, obuf := obuf, optr := optr, err := err }

/-- The same with a depth. -/
def blkAt (depth : Nat) (ibuf obuf : List Byte) (optr : Nat) (err : Bool) : State :=
  { blk ibuf obuf optr err with cfg := { ibufDepth := depth } }

/-- One step that accepts a command word: the response and the block's state after it. -/
def after (s : State) (w : Nat) : Option (Option RspWord × List Byte × List Byte × Nat × Bool) :=
  (nextState? (step (s.withFetchWord 16 w))).map (fun t => (t.pending, t.ibuf, t.obuf, t.optr, t.err))

/-- The bytes of a text (R65). -/
def text (cs : List Char) : List Byte := cs.filterMap charCode

/-- `n` equal bytes. -/
def same (n : Nat) : List Byte := List.replicate n 0x41#8

/-! ### WellFormed: what is ill formed is refused -/

theorem test_depth_zero_is_ill_formed : Config.wellFormed { ibufDepth := 0 } = false := by decide
theorem test_depth_one_is_well_formed : Config.wellFormed { ibufDepth := 1 } = true := by decide
theorem test_instances_are_well_formed :
    Config.chosen.wellFormed = true ∧ Instr.wellFormed (.push 0xFF#8) = true ∧ Instr.wellFormed .enc = true := by decide

/-! ### Decoding: one word for each command, written from the bits of R51 -/

theorem test_decode_nop : decode 0b0000_00000000#12 = .ok .nop := by rfl
theorem test_decode_push : decode 0b0001_11111111#12 = .ok (.push 0b11111111#8) := by rfl
theorem test_decode_pop : decode 0b0010_00000000#12 = .ok .pop := by rfl
theorem test_decode_stat : decode 0b0011_00000000#12 = .ok .stat := by rfl
theorem test_decode_clr : decode 0b0100_00000000#12 = .ok .clr := by rfl
theorem test_decode_enc : decode 0b1000_00000000#12 = .ok .enc := by rfl
theorem test_decode_dec : decode 0b1001_00000000#12 = .ok .dec := by rfl
theorem test_decode_encr : decode 0b1010_00000000#12 = .ok .encr := by rfl
theorem test_decode_decr : decode 0b1011_00000000#12 = .ok .decr := by rfl

/-- V229 to V246: reserved words. -/
theorem test_decode_reserved :
    [0x001, 0x0FF, 0x201, 0x2FF, 0x301, 0x480, 0x500, 0x600, 0x7FF, 0x801, 0x9FF, 0xA10, 0xB01, 0xC00, 0xD00, 0xE00,
      0xF00, 0xFFF].all (fun w => isReserved (BitVec.ofNat 12 w)) = true ∧
    [0x001, 0x480, 0x500, 0x801, 0xC00, 0xFFF].map (decodeTableWord 16) = List.replicate 6 none := by decide

/-- A table number with a bit above bit 11 is no command word (log 10). -/
theorem test_decode_table_word : decodeTableWord 16 0x1A5 = some (.push 0xA5#8) ∧ decodeTableWord 16 0x1000 = none ∧
    decodeTableWord 12 0x900 = some .dec := by decide

/-! ### One step of each command -/

/-- V190. -/
theorem test_nop : after (blk [1, 2, 3] [4, 5, 6, 7, 8] 2 false) 0x000
    = some (some 0x000#10, [1, 2, 3], [4, 5, 6, 7, 8], 2, false) := by decide
/-- V191. -/
theorem test_nop_keeps_err : after (blk [] [] 0 true) 0x000 = some (some 0x000#10, [], [], 0, true) := by decide
/-- V195. -/
theorem test_push_last : after (blk (same 15) [] 0 false) 0x141 = some (some 0x000#10, same 16, [], 0, false) := by decide
/-- V196. -/
theorem test_push_full : after (blk (same 16) [] 0 false) 0x142 = some (some 0x200#10, same 16, [], 0, false) := by decide
/-- V205. -/
theorem test_pop : after (blk (same 4) [0xFF#8] 0 false) 0x200 = some (some 0x1FF#10, same 4, [0xFF#8], 1, false) := by
  decide
/-- V201. -/
theorem test_pop_empty : after (blk [] [0x39#8, 0x68#8] 2 false) 0x200
    = some (some 0x200#10, [], [0x39#8, 0x68#8], 2, false) := by decide
/-- V215. -/
theorem test_stat_full_err : after (blk (same 16) [] 0 true) 0x300 = some (some 0x106#10, same 16, [], 0, true) := by
  decide
/-- V209. -/
theorem test_stat_oavail : after (blk [] [1, 2] 0 false) 0x300 = some (some 0x109#10, [], [1, 2], 0, false) := by decide
/-- V217. -/
theorem test_clr : after (blk (same 7) [] 0 true) 0x400 = some (some 0x000#10, [], [], 0, false) := by decide
/-- S1: `encode(b"asdasd") == "cf3seamuco"`. -/
theorem test_enc : after (blk (text "asdasd".toList) [9] 1 true) 0x800
    = some (some 0x000#10, [], text "cf3seamuco".toList, 0, false) := by decide
/-- V133: the empty message. -/
theorem test_enc_empty : after (blk [] [] 0 true) 0x800 = some (some 0x000#10, [], [], 0, false) := by decide
/-- V141: a short block. -/
theorem test_encr_short : after (blk [0xDE#8, 0xAD#8, 0xBE#8, 0xEF#8] [] 0 false) 0xA00
    = some (some 0x000#10, [], text "xzx5kxd".toList, 0, false) := by decide
/-- V145: a full block. -/
theorem test_encr_full : after (blk (text "hello".toList) [] 0 false) 0xA00
    = some (some 0x000#10, [], text "xd5as1bp".toList, 0, false) := by decide
/-- V168: mixed case. -/
theorem test_dec : after (blk (text "Cf3SeaMuco".toList) [] 0 true) 0x900
    = some (some 0x000#10, [], text "asdasd".toList, 0, false) := by decide
/-- S8, V174: `decode("bar#")` raises DecodeError; the unread output is lost (R137). -/
theorem test_dec_error : after (blk (text "bar#".toList) [1, 2] 1 false) 0x900
    = some (some 0x300#10, [], [], 0, true) := by decide
/-- V170: the symbols of S1 under the other policy (X1). -/
theorem test_decr : after (blk (text "cf3seamuco".toList) [] 0 false) 0xB00
    = some (some 0x000#10, [], [0x9A#8, 0xF0#8, 0x8B#8, 0x64#8, 0xAC#8, 0x0C#8], 0, false) := by decide
/-- V187: the zero byte is no member. -/
theorem test_decr_error : after (blk [0x00#8] [] 0 false) 0xB00 = some (some 0x300#10, [], [], 0, true) := by decide
/-- V238: a reserved word does not encode. -/
theorem test_reserved : after (blk (same 4) [1] 0 true) 0x801 = some (some 0x200#10, same 4, [1], 0, true) := by decide

/-! ### The ports -/

/-- R45: an offered word is accepted by an idle block, its response is delivered when the host takes it. -/
theorem test_transaction : (nextState? (Host.Core.run core 2
    { blk [] [] 0 false with inputs := hostScript [0x1FF#12] })).map (fun t => (t.ibuf, t.responses, t.inputs))
    = some ([0xFF#8], [0x000#10], []) := by decide
/-- R132: reset between acceptance and delivery. -/
theorem test_reset_abandons : nextState? (Host.Core.run core 2
    { blk [1] [] 0 false with inputs := [Edge.offer 0x800#12, Edge.reset] }) = some (blk [] [] 0 false) := by decide
/-- R46: no second command before the response is delivered. -/
theorem test_second_command_waits : (nextState? (Host.Core.run core 2
    { blk [] [] 0 false with inputs := [Edge.offer 0x101#12, Edge.offer 0x102#12] })).map (fun t => (t.ibuf, t.pending))
    = some ([1], some 0x000#10) := by decide

/-! ### The datapath, beside the commands above -/

/-- V33 to V59, in part. -/
theorem test_lut_inv : [0x79, 0x59, 0x48, 0x39, 0x6C, 0x4C, 0x30, 0x23, 0x19, 0xF9].map (fun n => lutInv (BitVec.ofNat 8 n))
    = [some 0, some 0, some 28, some 31, none, none, none, none, none, none] := by decide
/-- V86, V75, the examples of R71 and R80. -/
theorem test_pack : packStd [0x12#8, 0x34#8, 0x56#8] = [2, 8, 26, 5, 12] ∧ packRsp [0x12#8, 0x34#8, 0x56#8] = [22, 2, 13, 4, 1]
    ∧ packRsp [0xDE#8, 0xAD#8, 0xBE#8, 0xEF#8, 0x01#8, 0x23#8] = [1, 24, 27, 29, 27, 22, 26, 27, 3, 1] := by decide
/-- V125, V126, V129. -/
theorem test_unpack : unpackStd [20, 17, 4, 1] = [0xA4#8, 0x48#8] ∧ unpackRsp [20, 17, 4, 1] = [0x92#8, 0x34#8]
    ∧ unpackRsp [20, 17, 4, 0, 1] = [0x10#8, 0x12#8, 0x34#8]
    ∧ unpackRsp [0, 1, 2, 3, 4, 5, 6, 7, 8, 9] = [0x39#8, 0x8A#8, 0x41#8, 0x88#8, 0x20#8, 0x28#8] := by decide
/-- The lines of R55 and the listing form. -/
theorem test_assembler : assembleLine "  PUSH 'a' ; a comment".toList = some (some (.push 0x61#8))
    ∧ assembleLine "PUSH 255".toList = some (some (.push 0xFF#8)) ∧ assembleLine "PUSH 0x100".toList = none
    ∧ assembleLine "; only a comment".toList = some none
    ∧ listingLine 0x1FF#12 0x000#10 = "1FF  PUSH 0xFF ; OK".toList
    ∧ listingLine 0x200#12 0x139#10 = "200  POP ; DATA 0x39".toList
    ∧ listingLine 0xFFF#12 0x200#10 = "FFF  (reserved) ; REFUSED".toList
    ∧ pushs "ab".toList = some [.push 0x61#8, .push 0x62#8] := by decide

/-! ### Witnesses: a state and operands that meet each statement's hypotheses -/

/-- The states the witnesses use are good ones. -/
theorem inv_blk (depth : Nat) (ibuf obuf : List Byte) (optr : Nat) (err : Bool)
    (h : (decide (1 ≤ depth) && decide (ibuf.length ≤ depth) && decide (optr ≤ obuf.length)
      && decide (obuf.length ≤ ceilDiv (8 * depth) 5) && (!err || obuf.isEmpty)) = true) :
    (blkAt depth ibuf obuf optr err).Inv := by
  simp only [Bool.and_eq_true, decide_eq_true_eq, Bool.or_eq_true, Bool.not_eq_true', List.isEmpty_iff] at h
  obtain ⟨⟨⟨⟨h1, h2⟩, h3⟩, h4⟩, h5⟩ := h
  exact ⟨h1, h2, h3, h4, fun he => h5.elim (fun h => absurd (he.symm.trans h) (by decide)) (fun h => congrArg List.length h)⟩

/-- DecodingFollowsTheTable: a word in each clause, at the ends of the immediate. -/
theorem witness_DecodingFollowsTheTable :
    opcField 0x100#12 = 0x1#4 ∧ opcField 0x1FF#12 = 0x1#4 ∧
    ([0x000#12, 0x200#12, 0x300#12, 0x400#12, 0x800#12, 0x900#12, 0xA00#12, 0xB00#12].map opcField
      = [0x0#4, 0x2#4, 0x3#4, 0x4#4, 0x8#4, 0x9#4, 0xA#4, 0xB#4]) ∧
    [0x000#12, 0x200#12, 0x300#12, 0x400#12, 0x800#12, 0x900#12, 0xA00#12, 0xB00#12].all (fun w => immField w == 0) = true ∧
    opcField 0x001#12 ≠ 0x1#4 ∧ immField 0x001#12 ≠ 0x00#8 ∧
    opcField 0x500#12 ∉ [0x0#4, 0x1#4, 0x2#4, 0x3#4, 0x4#4, 0x8#4, 0x9#4, 0xA#4, 0xB#4] := by decide

theorem witness_TableRowsSelectTheirCommands : (⟨"PUSH", 0x100#12, 0xF00#12⟩ : OpcodeRow) ∈ opcodeTable := by decide

theorem witness_ReservedWordsAreRefused :
    isReserved 0x001#12 = true ∧ isReserved 0x0FF#12 = true ∧ isReserved 0x500#12 = true ∧ isReserved 0xFFF#12 = true ∧
    isReserved 0x000#12 = false ∧ isReserved 0x100#12 = false := by decide

/-- StepRunsTheDecodedCommand. -/
theorem witness_StepRunsTheDecodedCommand :
    ∃ (s : State) (e : Edge) (i : Instr), s.inputs = e :: [Edge.take] ∧ e.rst = false ∧ e.cmdValid = true ∧
      s.pending = none ∧ decode e.cmd = .ok i :=
  ⟨{ blk [] [] 0 false with inputs := transaction 0x1FF#12 }, Edge.offer 0x1FF#12, .push 0xFF#8, rfl, rfl, rfl, rfl, rfl⟩

/-- BlockWaitsForTheHost: no command offered to an idle block; a response not taken, a command offered beside it. -/
theorem witness_BlockWaitsForTheHost :
    (∃ (s : State) (e : Edge), s.inputs = [e] ∧ e.rst = false ∧ s.pending = none ∧ e.cmdValid = false) ∧
    (∃ (s : State) (e : Edge), s.inputs = [e] ∧ e.rst = false ∧ s.pending = some 0x000#10 ∧ e.rspReady = false ∧
      e.cmdValid = true) :=
  ⟨⟨{ blk [] [] 0 false with inputs := [Edge.take] }, Edge.take, rfl, rfl, rfl, rfl⟩,
    ⟨{ blk [] [] 0 false with inputs := [Edge.offer 0], pending := some 0 }, Edge.offer 0, rfl, rfl, rfl, rfl, rfl⟩⟩

/-- ResetEdgeAbandonsTheCommand: reset with a response in flight. -/
theorem witness_ResetEdgeAbandonsTheCommand :
    ∃ (s : State) (e : Edge), s.inputs = [e] ∧ e.rst = true ∧ s.pending = some 0x300#10 ∧ s.err = true :=
  ⟨{ blk [] [] 0 true with inputs := [Edge.reset], pending := some 0x300#10 }, Edge.reset, rfl, rfl, rfl, rfl⟩

/-- OneCommandInFlight: the response taken, and not taken. -/
theorem witness_OneCommandInFlight :
    (∃ (s t : State) (e : Edge), s.inputs = [e] ∧ e.rst = false ∧ s.pending = some 0x000#10 ∧ step s = .next t ∧
      e.rspReady = true) ∧
    (∃ (s t : State) (e : Edge), s.inputs = [e] ∧ e.rst = false ∧ s.pending = some 0x000#10 ∧ step s = .next t ∧
      e.rspReady = false) :=
  ⟨⟨{ blk [] [] 0 false with inputs := [Edge.take], pending := some 0x000#10 }, _, Edge.take, rfl, rfl, rfl, rfl, rfl⟩,
    ⟨{ blk [] [] 0 false with inputs := [Edge.offer 0], pending := some 0x000#10 }, _, Edge.offer 0, rfl, rfl, rfl, rfl, rfl⟩⟩

theorem witness_TransactionAnswersOnce :
    ∃ (s : State) (w : CmdWord), s.Inv ∧ s.pending = none ∧ s.inputs = transaction w ++ [Edge.reset] :=
  ⟨{ blkAt 1 [] [] 0 false with inputs := transaction 0x900#12 ++ [Edge.reset] }, 0x900#12,
    ⟨by decide, by decide, by decide, by decide, by decide⟩, rfl, rfl⟩

/-- ResponsesLeaveInOrder: a step that delivers, one that accepts, one of an idle host. -/
theorem witness_ResponsesLeaveInOrder :
    (∃ s t : State, step s = .next t ∧ s.pending = some 0x139#10 ∧ t.responses = [0x139#10]) ∧
    (∃ s t : State, step s = .next t ∧ t.pending = some 0x000#10 ∧ t.responses = []) ∧
    (∃ s t : State, step s = .next t ∧ s.inputs = []) :=
  ⟨⟨{ blk [] [] 0 false with inputs := [Edge.take], pending := some 0x139#10 }, _, rfl, rfl, rfl⟩,
    ⟨{ blk [] [] 0 false with inputs := [Edge.offer 0x000#12] }, _, rfl, rfl, rfl⟩, ⟨blk [] [] 0 false, _, rfl, rfl⟩⟩

/-- ResetValues, ResetMeetsTheInvariant, ClrLeavesTheResetState: the least depth. -/
theorem witness_depth : 1 ≤ (Config.mk 1).ibufDepth ∧ (Config.mk 1).wellFormed = true := by decide

/-- StepKeepsTheInvariant, StepNeverStops: a full buffer, and the error state, each with a step. -/
theorem witness_StepKeepsTheInvariant :
    (∃ s t : State, s.Inv ∧ step s = .next t ∧ s.ilen = s.cfg.ibufDepth ∧ t.olen = t.cfg.obufDepth) ∧
    (∃ s t : State, s.Inv ∧ step s = .next t ∧ s.err = true) :=
  ⟨⟨{ blkAt 4 (same 4) [] 0 false with inputs := [Edge.offer 0xA00#12] }, _,
      ⟨by decide, by decide, by decide, by decide, by decide⟩, rfl, rfl, rfl⟩,
    ⟨blkAt 1 [] [] 0 true, _, inv_blk 1 [] [] 0 true (by decide), rfl, rfl⟩⟩

/-- ReachableStatesAreGood: the reset state, and a state two steps on. -/
theorem witness_ReachableStatesAreGood :
    ∃ s : State, 1 ≤ (Config.mk 1).ibufDepth ∧ Reachable { ibufDepth := 1 } (hostScript [0x1FF#12]) s ∧
      s.responses = [0x000#10] :=
  ⟨_, by decide, .step (.step .reset rfl) rfl, rfl⟩

/-- CountersFitTheirWidths: every counter at its largest value. -/
theorem witness_CountersFitTheirWidths :
    ∃ s : State, s.Inv ∧ s.ilen = s.cfg.ibufDepth ∧ s.optr = s.olen ∧ s.olen = s.cfg.obufDepth :=
  ⟨blkAt 1 [7] [1, 2] 2 false, inv_blk 1 [7] [1, 2] 2 false (by decide), rfl, rfl, rfl⟩

/-- OutcomeConditions: a good state and a word for each outcome. -/
theorem witness_OutcomeConditions :
    (∃ s : State, s.Inv ∧ s.HasNonMember) ∧ (∃ s : State, s.Inv ∧ s.ilen = s.cfg.ibufDepth) ∧
    (∃ s : State, s.Inv ∧ s.optr = s.olen) ∧ (∃ s : State, s.Inv ∧ s.optr < s.olen) ∧
    isReserved 0x801#12 = true ∧ opcField 0x1FF#12 = 0x1#4 :=
  ⟨⟨blkAt 1 [0x23] [] 0 false, inv_blk 1 [0x23] [] 0 false (by decide), 0x23#8, by decide, by decide⟩,
    ⟨blkAt 1 [7] [] 0 false, inv_blk 1 [7] [] 0 false (by decide), rfl⟩,
    ⟨blkAt 1 [] [1] 1 false, inv_blk 1 [] [1] 1 false (by decide), rfl⟩,
    ⟨blkAt 1 [] [1] 0 false, inv_blk 1 [] [1] 0 false (by decide), by decide⟩, by decide, by decide⟩

/-- RefusalChangesNothing: a full `PUSH`, an empty `POP`, a reserved word. -/
theorem witness_RefusalChangesNothing :
    (∃ t, acceptWord 0x1FF#12 (blkAt 1 [7] [] 0 false) = .next t ∧ t.pending = some 0x200#10) ∧
    (∃ t, acceptWord 0x200#12 (blkAt 1 [7] [1] 1 false) = .next t ∧ t.pending = some 0x200#10) ∧
    (∃ t, acceptWord 0xFFF#12 (blkAt 1 [7] [1] 0 false) = .next t ∧ t.pending = some 0x200#10) :=
  ⟨⟨_, rfl, rfl⟩, ⟨_, rfl, rfl⟩, ⟨_, rfl, rfl⟩⟩

/-- DecodeErrorExactlyOnNonMembers, WhoWritesErr, ErrGatesNothing: a decode with and one without a non-member. -/
theorem witness_DecodeErrorExactlyOnNonMembers :
    (∃ t, exec .dec (blk [0x39, 0x23] [] 0 false) = .next t ∧ t.pending = some 0x300#10 ∧ t.err = true) ∧
    (∃ t, exec .decr (blk [0x39, 0x68] [] 0 true) = .next t ∧ t.pending = some 0x000#10 ∧ t.err = false) ∧
    Instr.dec ≠ .stat :=
  ⟨⟨_, rfl, rfl, rfl⟩, ⟨_, rfl, rfl, rfl⟩, by decide⟩

/-- WhoWritesErr, the step: an accepted `DEC` sets `ERR`. -/
theorem witness_WhoWritesErr : ∃ s t : State, step s = .next t ∧ s.err = false ∧ t.err = true :=
  ⟨{ blk [0x23] [] 0 false with inputs := [Edge.offer 0x900#12] }, _, rfl, rfl, rfl⟩

theorem witness_WhoWritesErr_commands :
    (∃ t, exec .nop (blk [] [] 0 true) = .next t) ∧ (∃ t, exec (.push 7) (blk [] [] 0 true) = .next t) ∧
    (∃ t, exec .pop (blk [] [] 0 true) = .next t) ∧ (∃ t, exec .stat (blk [] [] 0 true) = .next t) ∧
    (∃ t, exec .clr (blk [] [] 0 true) = .next t) ∧ (∃ t, exec .enc (blk [] [] 0 true) = .next t) ∧
    (∃ t, exec .encr (blk [] [] 0 true) = .next t) ∧ (∃ t, exec .dec (blk [0x2F] [] 0 false) = .next t) ∧
    (∃ t, exec .decr (blk [0x80] [] 0 false) = .next t) :=
  ⟨⟨_, rfl⟩, ⟨_, rfl⟩, ⟨_, rfl⟩, ⟨_, rfl⟩, ⟨_, rfl⟩, ⟨_, rfl⟩, ⟨_, rfl⟩, ⟨_, rfl⟩, ⟨_, rfl⟩⟩

/-- DecodeErrorEntry: unread output and a non-member in the last entry (V185). -/
theorem witness_DecodeErrorEntry :
    ∃ s t u : State, s.HasNonMember ∧ exec .dec s = .next t ∧ exec .clr s = .next u ∧ s.optr < s.olen :=
  ⟨blk (text "yyyyyyyyyyyyyyy!".toList) [1, 2] 1 false, _, _, ⟨0x21#8, by decide, by decide⟩, rfl, rfl, by decide⟩

/-- PushAppendsOrIsRefused: full; one entry short of full. -/
theorem witness_PushAppendsOrIsRefused :
    (∃ s : State, s.Inv ∧ s.ilen = s.cfg.ibufDepth) ∧
    (∃ s : State, s.Inv ∧ s.ilen ≠ s.cfg.ibufDepth ∧ s.ilen + 1 = s.cfg.ibufDepth) :=
  ⟨⟨blkAt 2 [1, 2] [] 0 false, inv_blk 2 [1, 2] [] 0 false (by decide), rfl⟩,
    ⟨blkAt 2 [1] [] 0 false, inv_blk 2 [1] [] 0 false (by decide), by decide, rfl⟩⟩

/-- PopReturnsOrIsRefused: nothing unread; one element unread. -/
theorem witness_PopReturnsOrIsRefused :
    (∃ s : State, s.Inv ∧ s.optr = s.olen) ∧ (∃ s : State, s.Inv ∧ s.optr ≠ s.olen ∧ s.optr + 1 = s.olen) :=
  ⟨⟨blkAt 1 [] [1, 2] 2 false, inv_blk 1 [] [1, 2] 2 false (by decide), rfl⟩,
    ⟨blkAt 1 [] [1, 2] 1 false, inv_blk 1 [] [1, 2] 1 false (by decide), by decide, rfl⟩⟩

/-- StatReturnsStatus: a good state in which three of the four fields are known. -/
theorem witness_StatReturnsStatus : ∃ s : State, s.Inv ∧ s.status = 0x06#8 :=
  ⟨blkAt 1 [1] [] 0 true, inv_blk 1 [1] [] 0 true (by decide), by decide⟩

/-- The frames: each instruction named in them answers a next state; `POP` both ways. -/
theorem witness_FrameOfNopStatPop :
    (∃ t, exec .nop (blk [1] [2, 3] 1 false) = .next t) ∧ (∃ t, exec .stat (blk [1] [2, 3] 1 false) = .next t) ∧
    (∃ t, exec .pop (blk [1] [2, 3] 1 false) = .next t ∧ t.optr = 2) ∧
    (∃ t, exec .pop (blk [1] [2, 3] 2 false) = .next t ∧ t.optr = 2) :=
  ⟨⟨_, rfl⟩, ⟨_, rfl⟩, ⟨_, rfl, rfl⟩, ⟨_, rfl, rfl⟩⟩

theorem witness_FrameOfPush :
    (∃ t, exec (.push 9) (blkAt 2 [1] [2] 0 false) = .next t ∧ t.ilen = 2) ∧
    (∃ t, exec (.push 9) (blkAt 1 [1] [2] 0 false) = .next t ∧ t.ilen = 1) :=
  ⟨⟨_, rfl, rfl⟩, ⟨_, rfl, rfl⟩⟩

theorem witness_FrameOfRunCommandsAndClr :
    (∃ t, exec .enc (blk [0x39, 0x68] [7] 1 false) = .next t) ∧ (∃ t, exec .encr (blk [0x39, 0x68] [7] 1 false) = .next t) ∧
    (∃ t, exec .dec (blk [0x39, 0x68] [7] 1 false) = .next t) ∧ (∃ t, exec .decr (blk [0x39, 0x68] [7] 1 false) = .next t) ∧
    (∃ t, exec .clr (blk [0x39, 0x68] [7] 1 false) = .next t) :=
  ⟨⟨_, rfl⟩, ⟨_, rfl⟩, ⟨_, rfl⟩, ⟨_, rfl⟩, ⟨_, rfl⟩⟩

/-- PushAndPopAreIndependent: room to push, output to pop; and neither. -/
theorem witness_PushAndPopAreIndependent :
    (∃ s : State, s.Inv ∧ s.ilen < s.cfg.ibufDepth ∧ s.optr < s.olen) ∧
    (∃ s : State, s.Inv ∧ s.ilen = s.cfg.ibufDepth ∧ s.optr = s.olen) :=
  ⟨⟨blkAt 1 [] [1] 0 false, inv_blk 1 [] [1] 0 false (by decide), by decide, by decide⟩,
    ⟨blkAt 1 [1] [1] 1 false, inv_blk 1 [1] [1] 1 false (by decide), rfl, rfl⟩⟩

/-- PushesBuildTheMessage: a message that just fits. -/
theorem witness_PushesBuildTheMessage :
    ∃ (bs : List Byte) (s : State), s.pending = none ∧ s.ilen + bs.length = s.cfg.ibufDepth :=
  ⟨[1, 2], blkAt 3 [0] [] 0 false, rfl, rfl⟩

/-- PopallReturnsTheMessage: output left, and none. -/
theorem witness_PopallReturnsTheMessage :
    (∃ s : State, s.Inv ∧ s.pending = none ∧ s.optr < s.olen) ∧ (∃ s : State, s.Inv ∧ s.pending = none ∧ s.olen = 0) :=
  ⟨⟨blkAt 2 [] [1, 2, 3] 1 false, inv_blk 2 [] [1, 2, 3] 1 false (by decide), rfl, by decide⟩,
    ⟨blkAt 2 [] [] 0 true, inv_blk 2 [] [] 0 true (by decide), rfl, rfl⟩⟩

/-- HostScriptRunsTheCommands: `encode(b"\xff") == "9h"` (S2), popped. -/
theorem witness_HostScriptRunsTheCommands :
    ∃ u : State, (blk [] [] 0 false).pending = none ∧
      execAll [.push 0xFF#8, .enc, .pop, .pop, .pop] (blk [] [] 0 false)
        = some ([0x000#10, 0x000#10, 0x139#10, 0x168#10, 0x200#10], u) :=
  ⟨_, rfl, rfl⟩

/-- LutMapsAreMutualInverses, LutInvFindsTheFoldedSymbol, FoldIsAsciiLowerCase: members of both cases, the ends of the
folded range and the codes beside it. -/
theorem witness_alphabet_lut :
    lutInv 0x48#8 = some 28 ∧ lutInv 0x68#8 = some 28 ∧ (0x80#8 : Byte) ≤ 0x80#8 ∧ (0x80#8 : Byte) ≤ 0xFF#8 ∧
    0x41 ≤ (0x41#8).toNat ∧ (0x5A#8).toNat ≤ 0x5A ∧ (0x40#8).toNat < 0x41 ∧ 0x5A < (0x5B#8).toNat := by decide

/-- StandardLengthLaws: a message that fills the buffer. -/
theorem witness_StandardLengthLaws : (same 16).length ≤ Config.chosen.ibufDepth ∧
    (List.replicate 16 (31#5 : Quantum)).length ≤ Config.chosen.ibufDepth := by decide

/-- BlockAndGroupAreInverse: the least and the largest block, a full group. -/
theorem witness_BlockAndGroupAreInverse :
    1 ≤ (same 1).length ∧ (same 1).length ≤ 5 ∧ 1 ≤ (same 5).length ∧ (same 5).length ≤ 5 ∧
    (List.replicate 8 (31#5 : Quantum)).length = 8 := by decide

/-- PaddingIsZeroAndIgnored: a last quantum under both policies; sequences that differ in dropped bits only, at the
lengths 2 (V112), 3 and 6, where bits of the last quantum but one are dropped too. -/
theorem witness_PaddingIsZeroAndIgnored :
    (packStd [0xFF#8]).getLast? = some 28 ∧ (packRsp [0xFF#8]).getLast? = some 7 ∧
    quantaBe [31, 28] >>> 2 = quantaBe [31, 31] >>> 2 ∧ quantaBe [31, 28, 0] >>> 7 = quantaBe [31, 31, 31] >>> 7 ∧
    quantaBe [1, 2, 3, 4, 6, 0] >>> 6 = quantaBe [1, 2, 3, 4, 7, 31] >>> 6 ∧ (List.replicate 8 (5#5 : Quantum)).length % 8 = 0 ∧
    groupValue [31, 7] % 2 ^ 8 = groupValue [31, 31] % 2 ^ 8 ∧
    groupValue [20, 17, 4] % 2 ^ 8 = groupValue [20, 25, 31] % 2 ^ 8 ∧
    groupValue [1, 2, 3, 4, 15, 0] % 2 ^ 24 = groupValue [1, 2, 3, 4, 31, 31] % 2 ^ 24 := by decide

/-- PoliciesReverseEachBlock: two blocks. -/
theorem witness_PoliciesReverseEachBlock : (same 10).length % 5 = 0 := by decide

/-- CanonicalQuantaRoundTrip: both sides of each equivalence, true and false. -/
theorem witness_CanonicalQuantaRoundTrip :
    packStd (unpackStd [31, 28]) = [31, 28] ∧ packStd (unpackStd [31, 29]) ≠ [31, 29] ∧
    packRsp (unpackRsp [31, 7]) = [31, 7] ∧ packRsp (unpackRsp [31, 8]) ≠ [31, 8] ∧ packStd (unpackStd [0]) ≠ [0] := by
  decide

/-- EncEncodesTheMessage, EncrEncodesTheMessage: the empty message and a full buffer. -/
theorem witness_EncEncodesTheMessage :
    (∃ s : State, s.Inv ∧ s.ilen = 0) ∧ (∃ s : State, s.Inv ∧ s.ilen = s.cfg.ibufDepth) :=
  ⟨⟨blkAt 1 [] [] 0 true, inv_blk 1 [] [] 0 true (by decide), rfl⟩,
    ⟨blkAt 3 [1, 2, 3] [1] 1 false, inv_blk 3 [1, 2, 3] [1] 1 false (by decide), rfl⟩⟩

/-- DecDecodesOrRaises, DecrDecodesOrRaises: all members; the empty message; one non-member. -/
theorem witness_DecDecodesOrRaises :
    (∃ (s : State) (Q : List Quantum), s.Inv ∧ s.ibuf.map lutInv = Q.map some ∧ Q = [31, 28]) ∧
    (∃ (s : State) (Q : List Quantum), s.Inv ∧ s.ibuf.map lutInv = Q.map some ∧ Q = []) ∧
    (∃ s : State, s.Inv ∧ s.HasNonMember) :=
  ⟨⟨blkAt 2 [0x39, 0x48] [] 0 false, [31, 28], inv_blk 2 [0x39, 0x48] [] 0 false (by decide), by decide, rfl⟩,
    ⟨blkAt 2 [] [] 0 false, [], inv_blk 2 [] [] 0 false (by decide), rfl, rfl⟩,
    ⟨blkAt 2 [0x39, 0x6C] [] 0 false, inv_blk 2 [0x39, 0x6C] [] 0 false (by decide), 0x6C#8, by decide, by decide⟩⟩

/-- RunCommandsArePure: two states with one message and everything else different. -/
theorem witness_RunCommandsArePure :
    ∃ s u : State, s.Inv ∧ u.Inv ∧ u.ibuf = s.ibuf ∧ u.cfg ≠ s.cfg ∧ u.obuf ≠ s.obuf ∧ u.err ≠ s.err :=
  ⟨blkAt 2 [0x39, 0x68] [1] 1 false, blkAt 3 [0x39, 0x68] [] 0 true, inv_blk 2 [0x39, 0x68] [1] 1 false (by decide),
    inv_blk 3 [0x39, 0x68] [] 0 true (by decide), rfl, by decide, by decide, by decide⟩

/-- EncodersEmitCanonicalSymbols: both encodes answer, with symbols. -/
theorem witness_EncodersEmitCanonicalSymbols :
    (∃ t, exec .enc (blk [0xFF] [] 0 false) = .next t ∧ 0x68#8 ∈ t.obuf) ∧
    (∃ t, exec .encr (blk [0xFF] [] 0 false) = .next t ∧ 0x38#8 ∈ t.obuf) :=
  ⟨⟨_, rfl, by decide⟩, ⟨_, rfl, by decide⟩⟩

/-- DecodersIgnoreCase: `"9h"` and `"9H"` (V150, V151). -/
theorem witness_DecodersIgnoreCase :
    ∃ s u : State, s.Inv ∧ u.Inv ∧ u.ibuf.map fold = s.ibuf.map fold ∧ u.ibuf ≠ s.ibuf :=
  ⟨blkAt 2 [0x39, 0x68] [] 0 false, blkAt 2 [0x39, 0x48] [] 0 false, inv_blk 2 [0x39, 0x68] [] 0 false (by decide),
    inv_blk 2 [0x39, 0x48] [] 0 false (by decide), by decide, by decide⟩

/-- DecodeUndoesEncode: `[0xFF]` under both policies (S2, V136). -/
theorem witness_DecodeUndoesEncode :
    (∃ s t u : State, s.Inv ∧ u.Inv ∧ u.ibuf = t.obuf ∧ exec .enc s = .next t) ∧
    (∃ s t u : State, s.Inv ∧ u.Inv ∧ u.ibuf = t.obuf ∧ exec .encr s = .next t) :=
  ⟨⟨blkAt 2 [0xFF] [] 0 false, _, blkAt 2 [0x39, 0x68] [] 0 false, inv_blk 2 [0xFF] [] 0 false (by decide),
      inv_blk 2 [0x39, 0x68] [] 0 false (by decide), rfl, rfl⟩,
    ⟨blkAt 2 [0xFF] [] 0 false, _, blkAt 2 [0x39, 0x38] [] 0 false, inv_blk 2 [0xFF] [] 0 false (by decide),
      inv_blk 2 [0x39, 0x38] [] 0 false (by decide), rfl, rfl⟩⟩

/-- RoundTripOnOneInstance: depth 2, the longest message that fits (1) and one more, under both policies. -/
theorem witness_RoundTripOnOneInstance :
    (∃ s t : State, s.Inv ∧ exec .enc s = .next t ∧ s.ilen = 5 * s.cfg.ibufDepth / 8) ∧
    (∃ s t : State, s.Inv ∧ exec .encr s = .next t ∧ 5 * s.cfg.ibufDepth / 8 < s.ilen) :=
  ⟨⟨blkAt 2 [0xFF] [] 0 false, _, inv_blk 2 [0xFF] [] 0 false (by decide), rfl, rfl⟩,
    ⟨blkAt 2 [0xFF, 0] [] 0 false, _, inv_blk 2 [0xFF, 0] [] 0 false (by decide), rfl, by decide⟩⟩

end Sys2Proof.Tests
end

section
/-! The run commands: what each leaves in a state whose input message fits, and that this depends on the input message
alone (spec rule R5). -/

namespace Sys2Proof.Machine

/-! ### What a run command does when the input message fits the input buffer -/

/-- An encode always completes (R90, R91): its result fits the output buffer. -/
theorem runEncode_next (p : Policy) {s : State} (hs : s.ilen ≤ s.cfg.ibufDepth) :
    runEncode p s = .next ((s.putResult (encodeMessage p s.ibuf)).respond .ok 0x00#8) :=
  runEncode_eq_next.2 ⟨encodeMessage_fits p hs, rfl⟩

/-- A decode of an invalid message completes with DecodeError (R95, R116). -/
theorem runDecode_next_of_invalid (p : Policy) {s : State} (hv : validate s.ibuf = none) :
    runDecode p s = .next (s.failRun.respond .decerr 0x00#8) :=
  runDecode_eq_next.2 (.inl ⟨hv, rfl⟩)

/-- A decode of a valid message completes (R96, R97): there are no more quanta than symbols, so its result fits the
output buffer. -/
theorem runDecode_next_of_valid (p : Policy) {s : State} {Q : List Quantum} (hs : s.ilen ≤ s.cfg.ibufDepth)
    (hv : validate s.ibuf = some Q) :
    runDecode p s = .next ((s.putResult (unpack p Q)).respond .ok 0x00#8) :=
  have hQ : Q.length ≤ s.cfg.ibufDepth := (validate_length hv).trans_le hs
  runDecode_eq_next.2 (.inr ⟨Q, hv, unpack_fits p hQ, rfl⟩)

/-! ### Two runs with the same result -/

/-- Both outcomes are next states, with the same block and the same response (R5). -/
def SameResult (x y : Host.Outcome State Fault Refusal) : Prop :=
  ∃ t v, x = .next t ∧ y = .next v ∧ t.SameBlock v ∧ v.pending = t.pending

/-- Two encodes of one message, in any two states that hold it, have the same result. -/
theorem runEncode_sameResult (p : Policy) {s u : State} (hs : s.ilen ≤ s.cfg.ibufDepth)
    (hu : u.ilen ≤ u.cfg.ibufDepth) (h : u.ibuf = s.ibuf) : SameResult (runEncode p s) (runEncode p u) := by
  have hu' := runEncode_next p hu
  rw [h] at hu'
  exact ⟨_, _, runEncode_next p hs, hu', ⟨rfl, rfl, rfl, rfl⟩, rfl⟩

/-- A decode sees its message through `validate` only: messages that validate alike decode with the same result. -/
theorem runDecode_sameResult (p : Policy) {s u : State} (hs : s.ilen ≤ s.cfg.ibufDepth)
    (hu : u.ilen ≤ u.cfg.ibufDepth) (h : validate u.ibuf = validate s.ibuf) :
    SameResult (runDecode p s) (runDecode p u) := by
  cases hv : validate s.ibuf with
  | none =>
    exact ⟨_, _, runDecode_next_of_invalid p hv, runDecode_next_of_invalid p (h.trans hv),
      ⟨rfl, rfl, rfl, rfl⟩, rfl⟩
  | some Q =>
    exact ⟨_, _, runDecode_next_of_valid p hs hv, runDecode_next_of_valid p hu (h.trans hv),
      ⟨rfl, rfl, rfl, rfl⟩, rfl⟩

/-- Settles O55: an encode is determined by the message, a decode by what the message validates to. -/
theorem runCommandsArePure : Obligations.RunCommandsArePure := by
  intro i s u hi hs hu h
  have hv : validate u.ibuf = validate s.ibuf := congrArg validate h
  rcases hi with rfl | rfl | rfl | rfl
  · exact runEncode_sameResult .standard hs.ilen hu.ilen h
  · exact runEncode_sameResult .rspamd hs.ilen hu.ilen h
  · exact runDecode_sameResult .standard hs.ilen hu.ilen hv
  · exact runDecode_sameResult .rspamd hs.ilen hu.ilen hv

end Sys2Proof.Machine
end

section
/-! The invariant of spec rule R14 along a run: it holds after reset, every step keeps it, and from it a step always
answers a next state (R46). Before that, the values after reset (R24). -/

namespace Sys2Proof.Machine

/-! ### What an empty block shows -/

/-- An index at or past `ILEN` reads no entry of `IBUF` (R11, R13). -/
theorem memRead_ibuf_past {s : State} {k : Nat} (h : s.ilen ≤ k) :
    s.memRead .ibuf k = .error (.entryNotValid .ibuf k) := by
  simp [State.memRead, List.getElem?_eq_none (show s.ibuf.length ≤ k from h)]

/-- Entry `q` of `ROM` is the symbol of the quantum `q`, in every state (R21, R61). -/
theorem memRead_rom (s : State) (q : Quantum) : s.memRead .rom q.toNat = .ok (lutFwd q) := by
  simp only [State.memRead, List.getElem?_eq_getElem (rom_index_lt q)]
  rfl

/-- With nothing in either buffer and no error, `IEMPTY` is the one bit of `STATUS` that is set (R16); that `IFULL` is
not set takes a depth of at least 1. -/
theorem status_of_empty {s : State} (hd : 1 ≤ s.cfg.ibufDepth) (hi : s.ilen = 0) (ho : s.olen = 0)
    (he : s.err = false) : s.status = 0x08#8 := by
  have hfull : s.ifull = false := by
    simp only [State.ifull, hi, decide_eq_false_iff_not]
    omega
  simp [State.status, State.iempty, State.oavail, hfull, hi, ho, he]

/-- Settles O13: the counters are lengths of empty lists, so no index is below them. -/
theorem resetValues : Obligations.ResetValues := by
  intro c hc
  have hi : (State.resetAt c).ilen = 0 := rfl
  have ho : (State.resetAt c).olen = 0 := rfl
  exact ⟨hi, ho, rfl, rfl, status_of_empty hc hi ho rfl, rfl,
    fun i => memRead_ibuf_past (hi ▸ Nat.zero_le i), fun i => memRead_obuf_past (ho ▸ Nat.zero_le i),
    memRead_rom _⟩

/-! ### The invariant under the operations on the state -/

/-- The invariant sees the parameter and the block only. -/
theorem State.Inv.of_sameBlock {s t : State} (hs : s.Inv) (hc : t.cfg = s.cfg) (hb : s.SameBlock t) : t.Inv := by
  obtain ⟨hi, ho, hp, he⟩ := hb
  have hil : t.ilen = s.ilen := congrArg List.length hi
  have hol : t.olen = s.olen := congrArg List.length ho
  constructor
  · exact hc ▸ hs.depth
  · rw [hil, hc]; exact hs.ilen
  · rw [hp, hol]; exact hs.optr
  · rw [hol, hc]; exact hs.olen
  · rw [he, hol]; exact hs.err

/-- A block with both buffers empty meets the invariant, whatever its `ERR`. -/
theorem State.Inv.of_empty {s : State} (hd : 1 ≤ s.cfg.ibufDepth) (hi : s.ilen = 0) (ho : s.olen = 0)
    (hp : s.optr = 0) : s.Inv where
  depth := hd
  ilen := by omega
  optr := by omega
  olen := by omega
  err _ := ho

theorem State.Inv.resetAt {c : Config} (hc : 1 ≤ c.ibufDepth) (drive : List Edge) :
    ({ State.resetAt c with inputs := drive } : State).Inv := .of_empty hc rfl rfl rfl

section
variable {s : State} (hs : s.Inv)
include hs

theorem State.Inv.respond (c : ResponseCode) (d : Byte) : (s.respond c d).Inv :=
  hs.of_sameBlock rfl ⟨rfl, rfl, rfl, rfl⟩

theorem State.Inv.deliver (r : RspWord) : (s.deliver r).Inv := hs.of_sameBlock rfl ⟨rfl, rfl, rfl, rfl⟩

theorem State.Inv.pastEdge : s.pastEdge.Inv := hs.of_sameBlock rfl ⟨rfl, rfl, rfl, rfl⟩

theorem State.Inv.resetBlock : s.resetBlock.Inv := .of_empty hs.depth rfl rfl rfl

theorem State.Inv.clearAll : s.clearAll.Inv := .of_empty hs.depth rfl rfl rfl

theorem State.Inv.failRun : s.failRun.Inv := .of_empty hs.depth rfl rfl rfl

theorem State.Inv.appendInput (h : s.ilen < s.cfg.ibufDepth) (b : Byte) : (s.appendInput b).Inv :=
  { hs with ilen := by simpa using h }

theorem State.Inv.advanceOptr (h : s.optr < s.olen) : s.advanceOptr.Inv := { hs with optr := h }

theorem State.Inv.putResult {m : List Byte} (h : m.length ≤ s.cfg.obufDepth) : (s.putResult m).Inv where
  depth := hs.depth
  ilen := Nat.zero_le _
  optr := Nat.zero_le _
  olen := h
  err h := nomatch h

/-! ### Every command and every step keeps the invariant -/

theorem exec_keeps_inv {i : Instr} {t : State} (h : exec i s = .next t) : t.Inv := by
  rw [exec_eq_next] at h
  cases i with
  | nop => exact h ▸ hs.respond _ _
  | push b =>
    rcases h with ⟨_, rfl⟩ | ⟨hlt, rfl⟩
    · exact hs.respond _ _
    · exact (hs.appendInput hlt b).respond _ _
  | pop =>
    rcases h with ⟨_, rfl⟩ | ⟨d, hd, rfl⟩
    · exact hs.respond _ _
    · have hlt : s.optr < s.olen := (List.getElem?_eq_some_iff.1 hd).1
      exact (hs.advanceOptr hlt).respond _ _
  | stat => exact h ▸ hs.respond _ _
  | clr => exact h ▸ hs.clearAll.respond _ _
  | enc | encr =>
    obtain ⟨hfits, rfl⟩ := h
    exact (hs.putResult hfits).respond _ _
  | dec | decr =>
    rcases h with ⟨_, rfl⟩ | ⟨Q, _, hfits, rfl⟩
    · exact hs.failRun.respond _ _
    · exact (hs.putResult hfits).respond _ _

theorem acceptWord_keeps_inv {w : CmdWord} {t : State} (h : acceptWord w s = .next t) : t.Inv := by
  cases hw : decode w with
  | ok i => exact exec_keeps_inv hs (acceptWord_ok hw s ▸ h)
  | error why => exact refuse_eq_next.1 (acceptWord_error hw s ▸ h) ▸ hs.respond _ _

theorem step_keeps_inv {t : State} (h : step s = .next t) : t.Inv := by
  rcases step_eq_next h with ⟨_, rfl⟩ | ⟨e, rest, _, hedge⟩
  · exact hs
  · rcases hedge with ⟨_, rfl⟩ | ⟨_, _, _, hacc⟩ | ⟨_, r, _, _, rfl⟩ | ⟨_, _, rfl⟩
    · exact hs.pastEdge.resetBlock
    · exact acceptWord_keeps_inv hs.pastEdge hacc
    · exact hs.pastEdge.deliver r
    · exact hs.pastEdge

/-! ### From a good state every command and every step completes -/

theorem runDecode_completes (p : Policy) : ∃ t, runDecode p s = .next t := by
  cases hv : validate s.ibuf with
  | none => exact ⟨_, runDecode_next_of_invalid p hv⟩
  | some Q => exact ⟨_, runDecode_next_of_valid p hs.ilen hv⟩

theorem exec_completes (i : Instr) : ∃ t, exec i s = .next t := by
  cases i with
  | nop | stat | clr => exact ⟨_, rfl⟩
  | push b =>
    rcases hs.ilen.eq_or_lt with hfull | hlt
    · exact ⟨_, execPush_eq_next.2 (.inl ⟨hfull, rfl⟩)⟩
    · exact ⟨_, execPush_eq_next.2 (.inr ⟨hlt, rfl⟩)⟩
  | pop =>
    rcases hs.optr.eq_or_lt with hnone | hlt
    · exact ⟨_, execPop_eq_next.2 (.inl ⟨hnone, rfl⟩)⟩
    · exact ⟨_, execPop_eq_next.2 (.inr ⟨_, List.getElem?_eq_getElem hlt, rfl⟩)⟩
  | enc => exact ⟨_, runEncode_next .standard hs.ilen⟩
  | encr => exact ⟨_, runEncode_next .rspamd hs.ilen⟩
  | dec => exact runDecode_completes hs .standard
  | decr => exact runDecode_completes hs .rspamd

theorem acceptWord_completes (w : CmdWord) : ∃ t, acceptWord w s = .next t := by
  cases hw : decode w with
  | ok i => exact acceptWord_ok hw s ▸ exec_completes hs i
  | error why => exact ⟨_, acceptWord_error hw s⟩

theorem clockEdge_completes (e : Edge) : ∃ t, clockEdge e s = .next t := by
  unfold clockEdge
  split
  · exact ⟨_, rfl⟩
  · split
    · exact acceptWord_completes hs e.cmd
    · split <;> exact ⟨_, rfl⟩

theorem step_completes : ∃ t, step s = .next t := by
  unfold step stepEdge
  split
  · exact ⟨_, rfl⟩
  · exact clockEdge_completes hs.pastEdge _

end

/-! ### Runs -/

theorem acceptWord_cfg {w : CmdWord} {s t : State} (h : acceptWord w s = .next t) : t.cfg = s.cfg := by
  cases hw : decode w with
  | ok i =>
    obtain ⟨⟨hcfg, _, _⟩, _⟩ := exec_host (acceptWord_ok hw s ▸ h)
    exact hcfg
  | error why => exact refuse_eq_next.1 (acceptWord_error hw s ▸ h) ▸ rfl

/-- No step writes the parameter (R6). -/
theorem step_cfg {s t : State} (h : step s = .next t) : t.cfg = s.cfg := by
  rcases step_eq_next h with ⟨_, rfl⟩ | ⟨e, rest, _, hedge⟩
  · rfl
  · rcases hedge with ⟨_, rfl⟩ | ⟨_, _, _, hacc⟩ | ⟨_, r, _, _, rfl⟩ | ⟨_, _, rfl⟩
    · rfl
    · exact (acceptWord_cfg hacc).trans s.pastEdge_cfg
    · rfl
    · rfl

/-- A run keeps the invariant and the parameter, by induction on its steps. -/
theorem Reachable.inv_and_cfg {c : Config} {drive : List Edge} {s : State} (hc : 1 ≤ c.ibufDepth)
    (h : Reachable c drive s) : s.Inv ∧ s.cfg = c := by
  induction h with
  | reset => exact ⟨.resetAt hc drive, rfl⟩
  | step _ hstep ih =>
    obtain ⟨hinv, hcfg⟩ := ih
    exact ⟨step_keeps_inv hinv hstep, (step_cfg hstep).trans hcfg⟩

/-- Settles O17: a run keeps the invariant, and from a state that meets it the next step completes. -/
theorem reachableStatesAreGood : Obligations.ReachableStatesAreGood := by
  intro c drive s hc h
  obtain ⟨hinv, hcfg⟩ := h.inv_and_cfg hc
  exact ⟨hinv, hcfg, step_completes hinv⟩

end Sys2Proof.Machine
end

section
/-! The decoder, one equation per outcome (spec rules R51 to R53). -/

namespace Sys2Proof

variable {w : CmdWord}

/-- The opcodes of the commands without operand are all that `commandOfOpc` names (R51). -/
theorem commandOfOpc_eq_none {opc : BitVec 4} :
    commandOfOpc opc = none ↔ opc ∉ [0x0#4, 0x2#4, 0x3#4, 0x4#4, 0x8#4, 0x9#4, 0xA#4, 0xB#4] := by
  revert opc
  decide

theorem decode_of_opc_push (h : opcField w = 0x1#4) : decode w = .ok (.push (immField w)) := if_pos h

/-- The opcode of `PUSH` names no command without operand, so the decoder reaches the second table. -/
theorem decode_of_commandOfOpc {i : Instr} (himm : immField w = 0x00#8) (h : commandOfOpc (opcField w) = some i) :
    decode w = .ok i := by
  have hpush : opcField w ≠ 0x1#4 := fun hopc => nomatch (hopc ▸ h : commandOfOpc 0x1#4 = some i)
  simp [decode, hpush, h, himm]

theorem decode_of_unassignedOpcode (hpush : opcField w ≠ 0x1#4) (h : commandOfOpc (opcField w) = none) :
    decode w = .error (.unassignedOpcode (opcField w)) := by
  simp [decode, hpush, h]

theorem decode_of_strayImmediate {i : Instr} (hpush : opcField w ≠ 0x1#4) (himm : immField w ≠ 0x00#8)
    (h : commandOfOpc (opcField w) = some i) :
    decode w = .error (.strayImmediate (opcField w) (immField w)) := by
  simp [decode, hpush, h, himm]

/-- The two classes of reserved word (R52). -/
theorem decode_of_reserved (hpush : opcField w ≠ 0x1#4)
    (h : immField w ≠ 0x00#8 ∨ commandOfOpc (opcField w) = none) : ∃ why, decode w = .error why := by
  cases hcmd : commandOfOpc (opcField w) with
  | none => exact ⟨_, decode_of_unassignedOpcode hpush hcmd⟩
  | some i =>
    have himm : immField w ≠ 0x00#8 := h.resolve_right (by simp [hcmd])
    exact ⟨_, decode_of_strayImmediate hpush himm hcmd⟩

end Sys2Proof

namespace Sys2Proof.Machine

/-- Settles O2: the obligation's clauses are the outcomes of `decode`, each at its own opcodes. -/
theorem decodingFollowsTheTable : Obligations.DecodingFollowsTheTable := by
  intro w opc imm8
  refine ⟨decode_of_opc_push, fun himm => ?_, fun hpush h => ?_⟩
  · have hcmd {c : BitVec 4} {i : Instr} (hc : commandOfOpc c = some i) (hopc : opc = c) : decode w = .ok i :=
      decode_of_commandOfOpc himm ((congrArg commandOfOpc hopc).trans hc)
    exact ⟨hcmd rfl, hcmd rfl, hcmd rfl, hcmd rfl, hcmd rfl, hcmd rfl, hcmd rfl, hcmd rfl⟩
  · exact decode_of_reserved hpush (h.imp_right commandOfOpc_eq_none.2)

end Sys2Proof.Machine
end

section
/-! The alphabet's forward and inverse maps (spec rules R61 to R64). -/

namespace Sys2Proof.Machine

/-- The index that `LutInv` finds holds the folded symbol (R63), and it fits a quantum, so the lookup loses nothing. -/
theorem lutFwd_of_lutInv {c : Byte} {q : Quantum} (h : lutInv c = some q) : lutFwd q = fold c := by
  obtain ⟨n, hfind, rfl⟩ := Option.map_eq_some_iff.1 h
  obtain ⟨hlt, hentry, _⟩ := List.findIdx?_eq_some_iff_getElem.1 hfind
  have hn : (BitVec.ofNat 5 n).toNat = n := Nat.mod_eq_of_lt hlt
  simpa only [lutFwd, hn] using eq_of_beq hentry

/-- Settles O37: one law for each direction of the lookup. -/
theorem lutMapsAreMutualInverses : Obligations.LutMapsAreMutualInverses :=
  ⟨lutInv_of_lutFwd, fun _ _ => lutFwd_of_lutInv⟩

end Sys2Proof.Machine
end

section
/-! The standard policy's integer form (spec rule R72), its length laws (R73, R76), and the empty sequence (R85). -/

namespace Sys2Proof.Machine

/-! ### The length laws -/

/-- What a short block of `r` bytes packs to, and the padding it takes (R73). -/
theorem packed_residue_table : ∀ r < 5,
    ceilDiv (8 * r) 5 = [0, 2, 4, 5, 7].getD r 0 ∧ 5 * ceilDiv (8 * r) 5 - 8 * r = [0, 2, 4, 1, 3].getD r 0 := by
  decide

/-- What a trailing group of `r` quanta unpacks to, and the bits it drops (R76). -/
theorem unpacked_residue_table : ∀ r < 8,
    5 * r / 8 = [0, 0, 1, 1, 2, 3, 3, 4].getD r 0 ∧ 5 * r - 8 * (5 * r / 8) = [0, 5, 2, 7, 4, 1, 6, 3].getD r 0 := by
  decide

/-- Full blocks take 8 quanta each, without padding, so the short block decides the rest. -/
theorem packStd_length_blocks (B : List Byte) :
    (packStd B).length = 8 * (B.length / 5) + ceilDiv (8 * (B.length % 5)) 5 :=
  (packStd_length B).trans (packRspCount_eq B.length).symm

/-- Full groups give 5 bytes each, with no bit dropped, so the trailing group decides the rest. -/
theorem unpackStd_length_groups (Q : List Quantum) :
    (unpackStd Q).length = 5 * (Q.length / 8) + 5 * (Q.length % 8) / 8 :=
  (unpackStd_length Q).trans (unpackRspCount_eq Q.length).symm

theorem packStd_fits {B : List Byte} {c : Config} (h : B.length ≤ c.ibufDepth) : (packStd B).length ≤ c.obufDepth :=
  ((packStd_length B).trans (packRsp_length B).symm).trans_le (packRsp_fits h)

/-- Settles O42: the length splits into full blocks and a short one, whose part of each law is a finite table. -/
theorem standardLengthLaws : Obligations.StandardLengthLaws := by
  refine ⟨fun B => ?_, fun Q => ?_⟩
  · obtain ⟨hcount, hpad⟩ := packed_residue_table (B.length % 5) (Nat.mod_lt _ (by decide))
    have hlen := packStd_length_blocks B
    refine ⟨packStd_length B, hcount ▸ hlen, ?_, fun c => packStd_fits⟩
    rw [← hpad, hlen]
    omega
  · obtain ⟨hcount, hdrop⟩ := unpacked_residue_table (Q.length % 8) (Nat.mod_lt _ (by decide))
    have hlen := unpackStd_length_groups Q
    refine ⟨unpackStd_length Q, hcount ▸ hlen, ?_, fun c => unpack_fits .standard⟩
    rw [← hdrop, hlen]
    omega

/-- Settles O50: with no input there is no group, block or byte to compute. -/
theorem emptySequenceIsFixed : Obligations.EmptySequenceIsFixed :=
  ⟨List.length_eq_zero_iff.1 (packStd_length []), packRsp_nil, List.length_eq_zero_iff.1 (unpackStd_length []),
    unpackRsp_nil⟩

/-! ### The integer form -/

/-- The bit string of a message starts with its first byte, and goes on with that of the rest (R71). -/
theorem stdBit_cons (b : Byte) (bs : List Byte) (p : Nat) :
    stdBit (b :: bs) p = if p < 8 then b.getLsbD (7 - p) else stdBit bs (p - 8) := by
  split
  next h =>
    simp only [stdBit, Nat.div_eq_of_lt h, Nat.mod_eq_of_lt h, List.getElem?_cons_zero]
  next h =>
    obtain ⟨p, rfl⟩ := Nat.exists_eq_add_of_le' (Nat.le_of_not_lt h)
    simp only [stdBit, Nat.add_div_right p (by decide : 0 < 8), Nat.add_mod_right, Nat.add_sub_cancel,
      List.getElem?_cons_succ]

/-- The bit string of a message is the binary expansion of its value, most significant bit first (R8, R71). -/
theorem stdBit_eq_be_testBit (B : List Byte) {p : Nat} (h : p < 8 * B.length) :
    stdBit B p = (be B).testBit (8 * B.length - 1 - p) := by
  induction B generalizing p with
  | nil => exact absurd h (Nat.not_lt_zero p)
  | cons b bs ih =>
    rw [List.length_cons] at h ⊢
    rw [stdBit_cons, be, Nat.shiftLeft_eq, Nat.mul_comm, Nat.testBit_two_pow_mul_add _ (be_lt bs)]
    split
    next hp =>
      rw [if_neg (by omega), show 8 * (bs.length + 1) - 1 - p - 8 * bs.length = 7 - p by omega]
      rfl
    next hp =>
      rw [ih (by omega), if_pos (by omega),
        show 8 * bs.length - 1 - (p - 8) = 8 * (bs.length + 1) - 1 - p by omega]

/-- Padding the bit string with zeros at its end is shifting the value left (R72). -/
theorem stdBit_eq_padded_testBit (B : List Byte) {p pad : Nat} (h : p < 8 * B.length + pad) :
    stdBit B p = (be B <<< pad).testBit (8 * B.length + pad - 1 - p) := by
  rw [Nat.testBit_shiftLeft]
  rcases Nat.lt_or_ge p (8 * B.length) with hin | hpast
  · rw [stdBit_eq_be_testBit B hin, decide_eq_true (by omega), Bool.true_and,
      show 8 * B.length + pad - 1 - p - pad = 8 * B.length - 1 - p by omega]
  · rw [stdBit_past hpast, decide_eq_false (by omega), Bool.false_and]

/-- A quantum is put together from its own bits, most significant first (R71). -/
theorem quantumOfBits_getLsbD : ∀ q : Quantum,
    quantumOfBits (q.getLsbD 4) (q.getLsbD 3) (q.getLsbD 2) (q.getLsbD 1) (q.getLsbD 0) = q := by decide

/-- Bit `i` of the base-32 digit `j` of `v` is bit `5j + i` of `v`. -/
theorem quantumAt_getLsbD (v j : Nat) {i : Nat} (h : i < 5) : (quantumAt v j).getLsbD i = v.testBit (5 * j + i) := by
  rw [quantumAt, BitVec.getLsbD_ofNat, decide_eq_true h, Bool.true_and, Nat.testBit_shiftRight]

theorem packStdInt_length (B : List Byte) : (packStdInt B).length = ceilDiv (8 * B.length) 5 := by simp [packStdInt]

theorem packStdInt_getElem {B : List Byte} {k : Nat} (h : k < (packStdInt B).length) :
    (packStdInt B)[k] = quantumAt (be B <<< (5 * ceilDiv (8 * B.length) 5 - 8 * B.length))
      (ceilDiv (8 * B.length) 5 - 1 - k) := by simp [packStdInt]

/-- Bit `t` of group `k`, counted from the front, is bit `4 - t` of the digit that R72 reads there. -/
theorem stdBit_eq_digit_getLsbD (B : List Byte) {k t : Nat} (hk : k < ceilDiv (8 * B.length) 5) (ht : t < 5) :
    stdBit B (5 * k + t) = (quantumAt (be B <<< (5 * ceilDiv (8 * B.length) 5 - 8 * B.length))
      (ceilDiv (8 * B.length) 5 - 1 - k)).getLsbD (4 - t) := by
  have hpad : 8 * B.length + (5 * ceilDiv (8 * B.length) 5 - 8 * B.length) = 5 * ceilDiv (8 * B.length) 5 :=
    Nat.add_sub_of_le (by simp only [ceilDiv]; omega)
  have hin : 5 * k + t < 8 * B.length + (5 * ceilDiv (8 * B.length) 5 - 8 * B.length) := by omega
  rw [stdBit_eq_padded_testBit B hin, quantumAt_getLsbD _ _ (by omega), hpad]
  congr 1
  omega

/-- Settles O40: group for group, the five bits of the bit string are those of the base-32 digit. -/
theorem packStdHasIntegerForm : Obligations.PackStdHasIntegerForm := by
  intro B
  refine List.ext_getElem ((packStd_length B).trans (packStdInt_length B).symm) fun k hk hk' => ?_
  have hbit {t : Nat} (ht : t < 5) := stdBit_eq_digit_getLsbD B (packStd_length B ▸ hk) ht
  rw [packStd_getElem hk, packStdInt_getElem hk', ← quantumOfBits_getLsbD (quantumAt _ _)]
  congr 1
  · exact hbit (t := 0) (by decide)
  · exact hbit (t := 1) (by decide)
  · exact hbit (t := 2) (by decide)
  · exact hbit (t := 3) (by decide)
  · exact hbit (t := 4) (by decide)

end Sys2Proof.Machine
end

section
/-! The encodes in every good state (spec rule R90): the end state, and what its flags show. -/

namespace Sys2Proof.Machine

/-! ### The length of an encode's result -/

/-- An encode has one symbol per quantum, and both policies pack to the same number of quanta (R73, R83). -/
theorem encodeMessage_length (p : Policy) (B : List Byte) :
    (encodeMessage p B).length = ceilDiv (8 * B.length) 5 := by
  rw [encodeMessage, List.length_map, pack_length]

/-- Only the empty message encodes to nothing (R85). -/
theorem encodeMessage_length_pos (p : Policy) {B : List Byte} : 0 < (encodeMessage p B).length ↔ B.length ≠ 0 := by
  rw [encodeMessage_length, ceilDiv]
  omega

/-! ### The derived flags once a run command has left a result (R16) -/

theorem State.iempty_putResult (m : List Byte) (s : State) : (s.putResult m).iempty = true := rfl

/-- The input is consumed, so a buffer with any entry at all is not full. -/
theorem State.ifull_putResult (m : List Byte) {s : State} (hd : 1 ≤ s.cfg.ibufDepth) : (s.putResult m).ifull = false :=
  decide_eq_false (Nat.ne_of_lt hd)

/-- `OPTR` is 0, so output is available exactly when the result is not empty. -/
theorem State.oavail_putResult (m : List Byte) (s : State) : (s.putResult m).oavail = true ↔ 0 < m.length :=
  decide_eq_true_iff

/-! ### The two encodes -/

/-- An encode in a good state, under either policy: it answers OK, the result replaces the output, the input is
consumed, and the flags show it. -/
theorem runEncode_result (p : Policy) {s : State} (hs : s.Inv) :
    ∃ t, runEncode p s = .next t ∧
      t = { s with obuf := (pack p s.ibuf).map lutFwd, optr := 0, err := false, ibuf := [],
                   pending := some 0x000#10 } ∧
      t.olen = ceilDiv (8 * s.ilen) 5 ∧ t.iempty = true ∧ t.ifull = false ∧ (t.oavail = true ↔ s.ilen ≠ 0) :=
  have hout := s.oavail_putResult (encodeMessage p s.ibuf)
  ⟨_, runEncode_next p hs.ilen, rfl, encodeMessage_length p s.ibuf, s.iempty_putResult (encodeMessage p s.ibuf),
    State.ifull_putResult (encodeMessage p s.ibuf) hs.depth, hout.trans (encodeMessage_length_pos p)⟩

/-- Settles O51: `ENC` is the encode under the standard policy. -/
theorem encEncodesTheMessage : Obligations.EncEncodesTheMessage :=
  ⟨rfl, fun _ => runEncode_result .standard⟩

end Sys2Proof.Machine
end

section
/-! The decodes in every good state (spec rules R95 to R97): the decoded bytes when every symbol is a member,
DecodeError when one is not. -/

namespace Sys2Proof.Machine

/-! ### Which message is valid (R95) -/

theorem State.hasNonMember_iff {s : State} : s.HasNonMember ↔ validate s.ibuf = none := validate_eq_none_iff.symm

/-- Validation fails or gives the quanta, so a message without a non-member is one of members throughout. -/
theorem State.not_hasNonMember_iff {s : State} :
    ¬s.HasNonMember ↔ ∃ Q : List Quantum, s.ibuf.map lutInv = Q.map some :=
  calc ¬s.HasNonMember
    _ ↔ validate s.ibuf ≠ none := not_congr s.hasNonMember_iff
    _ ↔ ∃ Q, validate s.ibuf = some Q := Option.ne_none_iff_exists'
    _ ↔ ∃ Q : List Quantum, s.ibuf.map lutInv = Q.map some := exists_congr fun _ => validate_eq_some_iff

/-! ### The two decodes -/

/-- A decode of members in a good state, under either policy: it answers OK, the bytes replace the output, and the
input is consumed. -/
theorem runDecode_result_of_members (p : Policy) {s : State} {Q : List Quantum} (hs : s.Inv)
    (hQ : s.ibuf.map lutInv = Q.map some) :
    runDecode p s = .next { s with obuf := unpack p Q, optr := 0, err := false, ibuf := [],
                                   pending := some 0x000#10 } ∧
    (unpack p Q).length = 5 * s.ilen / 8 := by
  have hv : validate s.ibuf = some Q := validate_eq_some_iff.2 hQ
  have hlen : Q.length = s.ilen := validate_length hv
  exact ⟨runDecode_next_of_valid p hs.ilen hv, hlen ▸ unpack_length p Q⟩

/-- A decode with a non-member in its message, under either policy and in any state: DecodeError, and no output. -/
theorem runDecode_result_of_nonMember (p : Policy) {s : State} (h : s.HasNonMember) :
    runDecode p s = .next { s with obuf := [], optr := 0, err := true, ibuf := [], pending := some 0x300#10 } :=
  runDecode_next_of_invalid p (s.hasNonMember_iff.1 h)

/-- Settles O53: `DEC` is the decode under the standard policy. -/
theorem decDecodesOrRaises : Obligations.DecDecodesOrRaises :=
  ⟨rfl, fun _ hs => ⟨fun _ => runDecode_result_of_members .standard hs, runDecode_result_of_nonMember .standard,
    State.not_hasNonMember_iff⟩⟩

end Sys2Proof.Machine
end

section
/-! `PUSH` and `POP` in every good state (spec rules R101, R102): at the end of its buffer each is refused; else it
moves its counter by one, and the flags follow the counter. -/

namespace Sys2Proof.Machine

variable {s : State}

/-! ### The derived flags after the counter has moved (R15) -/

theorem State.iempty_appendInput (b : Byte) (s : State) : (s.appendInput b).iempty = false :=
  decide_eq_false (by simp)

theorem State.ifull_appendInput (b : Byte) (s : State) :
    (s.appendInput b).ifull = true ↔ s.ilen + 1 = s.cfg.ibufDepth := by
  simp [State.ifull]

theorem State.oavail_advanceOptr (h : s.optr < s.olen) :
    s.advanceOptr.oavail = true ↔ s.optr + 1 ≠ s.olen := by
  have hlt_iff_ne : s.optr + 1 < s.olen ↔ s.optr + 1 ≠ s.olen := by omega
  exact decide_eq_true_iff.trans hlt_iff_ne

/-! ### The two outcomes of each command -/

theorem execPush_next_of_full (b : Byte) (h : s.ilen = s.cfg.ibufDepth) :
    execPush b s = .next (s.respond .refused 0x00#8) :=
  execPush_eq_next.2 (.inl ⟨h, rfl⟩)

theorem execPush_next_of_room (b : Byte) (h : s.ilen < s.cfg.ibufDepth) :
    execPush b s = .next ((s.appendInput b).respond .ok 0x00#8) :=
  execPush_eq_next.2 (.inr ⟨h, rfl⟩)

theorem execPop_next_of_none_left (h : s.optr = s.olen) : execPop s = .next (s.respond .refused 0x00#8) :=
  execPop_eq_next.2 (.inl ⟨h, rfl⟩)

theorem execPop_next_of_memRead {d : Byte} (h : s.memRead .obuf s.optr = .ok d) :
    execPop s = .next (s.advanceOptr.respond .data d) :=
  execPop_eq_next.2 (.inr ⟨d, memRead_obuf_eq_ok.1 h, rfl⟩)

/-- Settles O26: a good state that is not full has the entry `ILEN` (R14), so the store completes. -/
theorem pushAppendsOrIsRefused : Obligations.PushAppendsOrIsRefused := by
  intro s imm8 hs
  refine ⟨rfl, execPush_next_of_full imm8, fun hne => ?_⟩
  have hroom : s.ilen < s.cfg.ibufDepth := hs.ilen.lt_of_ne hne
  exact ⟨_, execPush_next_of_room imm8 hroom, rfl, s.ilen_appendInput imm8, memRead_appendInput_same imm8 s,
    s.iempty_appendInput imm8, s.ifull_appendInput imm8⟩

/-- Settles O27: a good state that has not returned all its output has `OPTR` below `OLEN` (R14), so entry `OPTR` is
valid. -/
theorem popReturnsOrIsRefused : Obligations.PopReturnsOrIsRefused := by
  refine ⟨rfl, fun s hs => ⟨execPop_next_of_none_left, fun hne => ?_⟩⟩
  have hlt : s.optr < s.olen := hs.optr.lt_of_ne hne
  have hread := memRead_obuf_valid hlt
  exact ⟨_, _, hread, execPop_next_of_memRead hread, rfl, State.oavail_advanceOptr hlt⟩

end Sys2Proof.Machine
end

section
/-! `STATUS` as the or of its flags, and the values it can have in a good state (spec rules R16, R103). -/

namespace Sys2Proof.Machine

/-- The response that carries the byte `d` is `0x100 | d` (R50). -/
theorem rspWord_data (d : Byte) : rspWord .data d = 0x100#10 ||| d.setWidth 10 := rfl

/-- `STATUS` in the ten bits of a response word, flag by flag, as the formula of R103 writes it. -/
theorem State.status_setWidth (s : State) :
    s.status.setWidth 10 =
      (if s.iempty = true then 8#10 else 0#10) ||| (if s.ifull = true then 4#10 else 0#10) |||
        (if s.err = true then 2#10 else 0#10) ||| (if s.oavail = true then 1#10 else 0#10) := by
  unfold State.status
  generalize s.iempty = iempty, s.ifull = ifull, s.err = err, s.oavail = oavail
  revert iempty ifull err oavail
  decide

/-- `STATUS` has sixteen values; seven are out when `IEMPTY` and `IFULL` exclude each other, and so do `ERR` and
`OAVAIL`. -/
theorem State.status_mem_of_exclusive (s : State) (hin : ¬(s.iempty = true ∧ s.ifull = true))
    (hout : ¬(s.err = true ∧ s.oavail = true)) :
    s.status ∈ [0x00#8, 0x01#8, 0x02#8, 0x04#8, 0x05#8, 0x06#8, 0x08#8, 0x09#8, 0x0A#8] := by
  unfold State.status
  revert hin hout
  generalize s.iempty = iempty, s.ifull = ifull, s.err = err, s.oavail = oavail
  revert iempty ifull err oavail
  decide

/-- A buffer with an entry at all is not both empty and full. -/
theorem State.Inv.not_iempty_and_ifull {s : State} (hs : s.Inv) : ¬(s.iempty = true ∧ s.ifull = true) := by
  simp only [State.iempty, State.ifull, decide_eq_true_eq]
  have hdepth := hs.depth
  omega

/-- An error leaves no output (R14). -/
theorem State.Inv.not_err_and_oavail {s : State} (hs : s.Inv) : ¬(s.err = true ∧ s.oavail = true) := by
  rintro ⟨herr, havail⟩
  have hlt : s.optr < s.olen := of_decide_eq_true havail
  have hnone := hs.err herr
  omega

/-- Settles O28: the response carries `STATUS`, whose flags the invariant excludes in two pairs. -/
theorem statReturnsStatus : Obligations.StatReturnsStatus := by
  refine ⟨rfl, fun s => ?_,
    fun s hs => s.status_mem_of_exclusive hs.not_iempty_and_ifull hs.not_err_and_oavail⟩
  have hrsp : rspWord .data s.status = _ := (rspWord_data s.status).trans (congrArg _ s.status_setWidth)
  simp only [State.iempty, State.ifull, State.oavail, decide_eq_true_eq] at hrsp
  exact hrsp ▸ exec_eq_next.2 rfl

end Sys2Proof.Machine
end

section
/-! `NOP` and `CLR`, which complete in every state (spec rules R100, R104). -/

namespace Sys2Proof.Machine

/-- Settles O25: `NOP` only responds. -/
theorem nopOnlyAnswers : Obligations.NopOnlyAnswers :=
  ⟨rfl, fun _ => exec_eq_next.2 rfl⟩

/-- Settles O29: `CLR` leaves the fields of the reset state, and `STATUS` is that of an empty block. -/
theorem clrLeavesTheResetState : Obligations.ClrLeavesTheResetState :=
  ⟨rfl, fun _ => ⟨_, exec_eq_next.2 rfl, rfl, fun hd => status_of_empty hd rfl rfl rfl⟩⟩

end Sys2Proof.Machine
end

section
/-! Which words are reserved (spec rule R52), read off the rows of the opcode table field by field, and their refusal
(R105). -/

namespace Sys2Proof

variable {w : CmdWord}

theorem mkWord_opcField_immField (w : CmdWord) : mkWord (opcField w) (immField w) = w :=
  BitVec.extractLsb'_append_extractLsb' (w := 4) (len := 8)

/-- A word is its two fields (R47). -/
theorem cmdWord_eq_iff {v : CmdWord} : w = v ↔ opcField w = opcField v ∧ immField w = immField v := by
  refine ⟨fun h => h ▸ ⟨rfl, rfl⟩, fun ⟨hopc, himm⟩ => ?_⟩
  rw [← mkWord_opcField_immField w, hopc, himm, mkWord_opcField_immField v]

/-- A row of the table compares the two fields apart (R51). -/
theorem OpcodeRow.selects_iff {r : OpcodeRow} :
    r.selects w = true ↔
      opcField w &&& opcField r.mask = opcField r.pattern ∧ immField w &&& immField r.mask = immField r.pattern :=
  calc r.selects w = true
    _ ↔ w &&& r.mask = r.pattern := beq_iff_eq
    _ ↔ opcField (w &&& r.mask) = opcField r.pattern ∧ immField (w &&& r.mask) = immField r.pattern := cmdWord_eq_iff
    _ ↔ _ := by simp only [opcField, immField, BitVec.extractLsb'_and]

/-- The row of `PUSH` looks at the opcode only; every other row looks at all bits and has a zero immediate. -/
theorem opcodeTable_any_selects_iff :
    opcodeTable.any (·.selects w) = true ↔
      opcField w = 0x1#4 ∨ (commandOfOpc (opcField w) ≠ none ∧ immField w = 0x00#8) := by
  have hopc : opcField w &&& 0xF#4 = opcField w := BitVec.and_allOnes
  have himm : immField w &&& 0xFF#8 = immField w := BitVec.and_allOnes
  rw [ne_eq, commandOfOpc_eq_none, not_not]
  simp only [opcodeTable, List.any_cons, List.any_nil, Bool.or_eq_true, OpcodeRow.selects_iff]
  generalize opcField w = opc, immField w = imm at hopc himm ⊢
  simp only [opcField, immField, BitVec.reduceExtractLsb', BitVec.extractLsb'_zero, BitVec.and_zero, hopc, himm,
    and_true, Bool.false_eq_true, or_false, List.mem_cons, List.not_mem_nil]
  tauto

/-- A word matches no row on the very condition on which the decoder rejects it (R52, R53). -/
theorem isReserved_iff :
    isReserved w = true ↔ opcField w ≠ 0x1#4 ∧ (immField w ≠ 0x00#8 ∨ commandOfOpc (opcField w) = none) := by
  rw [isReserved, Bool.not_eq_true', ← Bool.not_eq_true, opcodeTable_any_selects_iff]
  tauto

theorem mem_unassignedOpcodes_iff {opc : BitVec 4} :
    opc ∈ [0x5#4, 0x6#4, 0x7#4, 0xC#4, 0xD#4, 0xE#4, 0xF#4] ↔ opc ≠ 0x1#4 ∧ commandOfOpc opc = none := by
  revert opc
  decide

theorem mem_operandlessOpcodes_iff {opc : BitVec 4} :
    opc ∈ [0x0#4, 0x2#4, 0x3#4, 0x4#4, 0x8#4, 0x9#4, 0xA#4, 0xB#4] ↔ opc ≠ 0x1#4 ∧ commandOfOpc opc ≠ none := by
  revert opc
  decide

end Sys2Proof

namespace Sys2Proof.Machine

/-- A reserved word does not decode, so the port refuses it. -/
theorem acceptWord_of_isReserved {w : CmdWord} (h : isReserved w = true) (s : State) : acceptWord w s = refuse s := by
  obtain ⟨hpush, hrest⟩ := isReserved_iff.1 h
  obtain ⟨why, hwhy⟩ := decode_of_reserved hpush hrest
  exact acceptWord_error hwhy s

/-- Settles O5: apart from `PUSH`'s, an opcode is unassigned or that of a command without operand. -/
theorem reservedWordsAreRefused : Obligations.ReservedWordsAreRefused := by
  refine fun w => ⟨?_, acceptWord_of_isReserved⟩
  rw [isReserved_iff, mem_unassignedOpcodes_iff, mem_operandlessOpcodes_iff]
  tauto

end Sys2Proof.Machine
end

section
/-! What raising DecodeError leaves (spec rules R116, R118). -/

namespace Sys2Proof.Machine

/-- Settles O22: under either policy a decode of a non-member raises, and `CLR` writes the same fields as raising does,
with the other value of `ERR`. -/
theorem decodeErrorEntry : Obligations.DecodeErrorEntry := by
  intro s h
  have hdec : exec .dec s = _ := runDecode_result_of_nonMember .standard h
  have hdecr : exec .decr s = _ := runDecode_result_of_nonMember .rspamd h
  refine ⟨hdec, hdecr.trans hdec.symm, fun t u ht hu => ?_⟩
  obtain rfl := Host.Outcome.next.inj (hdec.symm.trans ht)
  obtain rfl : u = s.clearAll.respond .ok 0x00#8 := exec_eq_next.1 hu
  rfl

end Sys2Proof.Machine
end

section
/-! How a command ends: it raises DecodeError, it is refused, or it is performed (spec rules R110 to R113). -/

namespace Sys2Proof.Machine

variable {i : Instr} {s t : State}

/-! ### Response words -/

/-- A response word shows its code (R49). -/
theorem rspWord_code (c : ResponseCode) (d : Byte) : (rspWord c d).extractLsb' 8 2 = c.bits :=
  BitVec.extractLsb'_append_eq_left

theorem rspWord_ne_of_bits_ne {c c' : ResponseCode} (h : c.bits ≠ c'.bits) (d d' : Byte) :
    rspWord c d ≠ rspWord c' d' := by
  intro heq
  have hcode := congrArg (BitVec.extractLsb' 8 2) heq
  rw [rspWord_code, rspWord_code] at hcode
  exact h hcode

/-! ### The three ends of a command -/

/-- The condition of DecodeError (R110). -/
def Raises (i : Instr) (s : State) : Prop := (i = .dec ∨ i = .decr) ∧ s.HasNonMember

/-- The condition on which a command, as against a reserved word, is refused (R113). -/
def Refuses (i : Instr) (s : State) : Prop :=
  ((∃ b, i = .push b) ∧ s.ilen = s.cfg.ibufDepth) ∨ (i = .pop ∧ s.optr = s.olen)

/-- The ends of the command `i` in the state `s`, each with the state it leaves and when it occurs. -/
inductive Ends (i : Instr) (s : State) : State → Prop where
  | raised (hraises : Raises i s) : Ends i s (s.failRun.respond .decerr 0x00#8)
  | refused (hrefuses : Refuses i s) : Ends i s (s.respond .refused 0x00#8)
  | performed {u : State} {c : ResponseCode} {d : Byte} (hraises : ¬Raises i s) (hrefuses : ¬Refuses i s)
      (hcode : (c = .ok ∧ d = 0x00#8) ∨ c = .data) : Ends i s (u.respond c d)

theorem Raises.not_refuses (h : Raises i s) : ¬Refuses i s := by
  obtain ⟨rfl | rfl, _⟩ := h <;> simp [Refuses]

/-- A command that answers a next state ends in one of the three ways. -/
theorem ends_of_exec (h : exec i s = .next t) : Ends i s t := by
  rw [exec_eq_next] at h
  cases i with
  | nop | clr => exact h ▸ .performed (by simp [Raises]) (by simp [Refuses]) (.inl ⟨rfl, rfl⟩)
  | stat => exact h ▸ .performed (by simp [Raises]) (by simp [Refuses]) (.inr rfl)
  | enc | encr =>
    obtain ⟨_, rfl⟩ := h
    exact .performed (by simp [Raises]) (by simp [Refuses]) (.inl ⟨rfl, rfl⟩)
  | push b =>
    rcases h with ⟨hfull, rfl⟩ | ⟨hroom, rfl⟩
    · exact .refused (.inl ⟨⟨b, rfl⟩, hfull⟩)
    · exact .performed (by simp [Raises]) (by simp [Refuses, hroom.ne]) (.inl ⟨rfl, rfl⟩)
  | pop =>
    rcases h with ⟨hnone, rfl⟩ | ⟨d, hd, rfl⟩
    · exact .refused (.inr ⟨rfl, hnone⟩)
    · have hlt : s.optr < s.olen := (List.getElem?_eq_some_iff.1 hd).1
      exact .performed (by simp [Raises]) (by simp [Refuses, hlt.ne]) (.inr rfl)
  | dec | decr =>
    rcases h with ⟨hinvalid, rfl⟩ | ⟨Q, hvalid, _, rfl⟩
    · exact .raised ⟨by simp, s.hasNonMember_iff.2 hinvalid⟩
    · exact .performed (by simp [Raises, s.hasNonMember_iff, hvalid]) (by simp [Refuses]) (.inl ⟨rfl, rfl⟩)

/-- The response tells which of the three ends it was. -/
theorem Ends.response (h : Ends i s t) :
    ∃ r, t.pending = some r ∧ (r = 0x300#10 ↔ Raises i s) ∧ (r = 0x200#10 ↔ Refuses i s) ∧
      (r ≠ 0x300#10 → r ≠ 0x200#10 → r = 0x000#10 ∨ ∃ b : Byte, r = 0x100#10 ||| b.setWidth 10) := by
  cases h with
  | raised hraises =>
    exact ⟨0x300#10, rfl, iff_of_true rfl hraises, iff_of_false (by decide) hraises.not_refuses,
      fun hne => (hne rfl).elim⟩
  | refused hrefuses =>
    exact ⟨0x200#10, rfl, iff_of_false (by decide) fun hraises => hraises.not_refuses hrefuses,
      iff_of_true rfl hrefuses, fun _ hne => (hne rfl).elim⟩
  | @performed u c d hraises hrefuses hcode =>
    have hdecerr : c.bits ≠ ResponseCode.decerr.bits := by rcases hcode with ⟨rfl, _⟩ | rfl <;> decide
    have hrefused : c.bits ≠ ResponseCode.refused.bits := by rcases hcode with ⟨rfl, _⟩ | rfl <;> decide
    refine ⟨rspWord c d, rfl, iff_of_false (rspWord_ne_of_bits_ne hdecerr d 0x00#8) hraises,
      iff_of_false (rspWord_ne_of_bits_ne hrefused d 0x00#8) hrefuses, fun _ _ => ?_⟩
    rcases hcode with ⟨rfl, rfl⟩ | rfl
    · exact .inl rfl
    · exact .inr ⟨d, rspWord_data d⟩

theorem Ends.pending_eq_decerr_iff (h : Ends i s t) : t.pending = some 0x300#10 ↔ Raises i s := by
  obtain ⟨r, hr, hraises, _, _⟩ := h.response
  rw [hr, Option.some.injEq, hraises]

theorem Ends.pending_eq_refused_iff (h : Ends i s t) : t.pending = some 0x200#10 ↔ Refuses i s := by
  obtain ⟨r, hr, _, hrefuses, _⟩ := h.response
  rw [hr, Option.some.injEq, hrefuses]

theorem Ends.eq_of_raises (h : Ends i s t) (hraises : Raises i s) : t = s.failRun.respond .decerr 0x00#8 := by
  cases h with
  | raised => rfl
  | refused hrefuses => exact absurd hrefuses hraises.not_refuses
  | performed hnot => exact absurd hraises hnot

theorem Ends.eq_of_refuses (h : Ends i s t) (hrefuses : Refuses i s) : t = s.respond .refused 0x00#8 := by
  cases h with
  | raised hraises => exact absurd hrefuses hraises.not_refuses
  | refused => rfl
  | performed _ hnot => exact absurd hrefuses hnot

/-- Settles O21: the response tells that the command raised, and raising sets `ERR`, which is `STATUS[1]`. -/
theorem decodeErrorExactlyOnNonMembers : Obligations.DecodeErrorExactlyOnNonMembers := by
  intro i s t h
  have hends := ends_of_exec h
  refine ⟨hends.pending_eq_decerr_iff, fun hdecerr => ?_⟩
  obtain rfl := hends.eq_of_raises (hends.pending_eq_decerr_iff.1 hdecerr)
  exact ⟨rfl, State.status_bit_one _⟩

/-- A word answered `REFUSED` only leaves the response, whether it is a command's or reserved (R112). -/
theorem acceptWord_refused {w : CmdWord} (h : acceptWord w s = .next t) (ht : t.pending = some 0x200#10) :
    t = s.respond .refused 0x00#8 := by
  cases hw : decode w with
  | ok i =>
    have hends := ends_of_exec (acceptWord_ok hw s ▸ h)
    exact hends.eq_of_refuses (hends.pending_eq_refused_iff.1 ht)
  | error why => exact refuse_eq_next.1 (acceptWord_error hw s ▸ h)

/-- Settles O20: `STAT` writes its own response over the one in flight, and `STATUS` does not see it. -/
theorem refusalChangesNothing : Obligations.RefusalChangesNothing := by
  intro s t w h ht
  obtain rfl := acceptWord_refused h ht
  exact ⟨rfl, rfl⟩

end Sys2Proof.Machine
end

section
/-! The words of each command (spec rules R51 to R53), and the outcome of every word in a good state (R113). -/

namespace Sys2Proof

variable {w : CmdWord} {i : Instr}

theorem encode_of_commandOfOpc {opc : BitVec 4} (h : commandOfOpc opc = some i) : encode i = mkWord opc 0x00#8 := by
  have htable : ∀ c, ∀ j ∈ commandOfOpc c, encode j = mkWord c 0x00#8 := by decide
  exact htable opc i h

/-- Every command is well formed, so its word decodes to it. -/
theorem decode_encode (i : Instr) : decode (encode i) = .ok i := by
  cases i with
  | push b => exact Laws.RoundTrip.push b rfl
  | nop | pop | stat | clr | enc | dec | encr | decr => rfl

/-- A word that decodes to a command is that command's word: the decoder drops no bit. -/
theorem encode_of_decode (h : decode w = .ok i) : encode i = w := by
  rw [← mkWord_opcField_immField w]
  by_cases hpush : opcField w = 0x1#4
  · obtain rfl := Except.ok.inj ((decode_of_opc_push hpush).symm.trans h)
    rw [hpush, encode]
  · cases hcmd : commandOfOpc (opcField w) with
    | none => exact nomatch (decode_of_unassignedOpcode hpush hcmd).symm.trans h
    | some j =>
      by_cases himm : immField w = 0x00#8
      · obtain rfl := Except.ok.inj ((decode_of_commandOfOpc himm hcmd).symm.trans h)
        rw [himm, encode_of_commandOfOpc hcmd]
      · exact nomatch (decode_of_strayImmediate hpush himm hcmd).symm.trans h

theorem eq_encode_iff_of_decode (h : decode w = .ok i) {j : Instr} : w = encode j ↔ i = j := by
  refine ⟨?_, ?_⟩
  · rintro rfl
    exact Except.ok.inj (h.symm.trans (decode_encode j))
  · rintro rfl
    exact (encode_of_decode h).symm

theorem opcField_eq_push_iff_of_decode (h : decode w = .ok i) : opcField w = 0x1#4 ↔ ∃ b, i = .push b := by
  refine ⟨fun hpush => ⟨immField w, Except.ok.inj (h.symm.trans (decode_of_opc_push hpush))⟩, ?_⟩
  rintro ⟨b, rfl⟩
  rw [← encode_of_decode h]
  exact BitVec.extractLsb'_append_eq_left

/-- The reserved words are those that the decoder rejects (R52, R53). -/
theorem isReserved_iff_decode_error : isReserved w = true ↔ ∃ why, decode w = .error why := by
  rw [isReserved_iff]
  refine ⟨fun ⟨hpush, hrest⟩ => decode_of_reserved hpush hrest, fun ⟨why, hwhy⟩ => ⟨fun hpush => ?_, ?_⟩⟩
  · exact nomatch (decode_of_opc_push hpush).symm.trans hwhy
  · refine or_iff_not_imp_left.2 fun himm => Option.eq_none_iff_forall_ne_some.2 fun i hi => ?_
    exact nomatch (decode_of_commandOfOpc (not_not.1 himm) hi).symm.trans hwhy

end Sys2Proof

namespace Sys2Proof.Machine

variable {w : CmdWord} {i : Instr} {s : State}

/-- The condition of DecodeError, on the word (R113). -/
theorem raises_iff_word (hw : decode w = .ok i) : Raises i s ↔ (w = 0x900#12 ∨ w = 0xB00#12) ∧ s.HasNonMember := by
  have hdec : w = 0x900#12 ↔ i = .dec := eq_encode_iff_of_decode hw (j := .dec)
  have hdecr : w = 0xB00#12 ↔ i = .decr := eq_encode_iff_of_decode hw (j := .decr)
  rw [hdec, hdecr, Raises]

/-- The condition of refusal, on the word: a word that decodes is not reserved (R113). -/
theorem refuses_iff_word (hw : decode w = .ok i) :
    Refuses i s ↔
      (opcField w = 0x1#4 ∧ s.ilen = s.cfg.ibufDepth) ∨ (w = 0x200#12 ∧ s.optr = s.olen) ∨ isReserved w = true := by
  have hpop : w = 0x200#12 ↔ i = .pop := eq_encode_iff_of_decode hw (j := .pop)
  have hvalid : ¬isReserved w = true := by simp [isReserved_iff_decode_error, hw]
  rw [opcField_eq_push_iff_of_decode hw, hpop, or_iff_left hvalid, Refuses]

/-- Settles O19: a word that decodes ends as its command does; one that does not is reserved, is no decode's word, and
is refused. -/
theorem outcomeConditions : Obligations.OutcomeConditions := by
  intro s w hs
  cases hw : decode w with
  | ok i =>
    obtain ⟨t, ht⟩ := exec_completes hs i
    obtain ⟨r, hr, hraises, hrefuses, hrest⟩ := (ends_of_exec ht).response
    exact ⟨t, r, (acceptWord_ok hw s).trans ht, hr, hraises.trans (raises_iff_word hw),
      hrefuses.trans (refuses_iff_word hw), hrest⟩
  | error why =>
    have hdecode : ¬((w = 0x900#12 ∨ w = 0xB00#12) ∧ s.HasNonMember) := by
      rintro ⟨rfl | rfl, _⟩ <;> exact nomatch hw
    have hreserved : isReserved w = true := isReserved_iff_decode_error.2 ⟨why, hw⟩
    exact ⟨_, 0x200#10, acceptWord_error hw s, rfl, iff_of_false (by decide) hdecode,
      iff_of_true rfl (.inr (.inr hreserved)), fun _ hne => (hne rfl).elim⟩

end Sys2Proof.Machine
end

section
/-! `PUSH` and `POP` in either order (spec rule R138): `PUSH` sees the input buffer and writes it, `POP` sees the output
buffer and writes `OPTR`, and nothing else but the response is written. -/

namespace Sys2Proof.Machine

variable {s : State}

/-- What `PUSH` does to the input buffer and the response is settled by the parameter and the input buffer; the rest of
the block it leaves as it stands (R101). -/
theorem execPush_sees_ibuf_only (b : Byte) (hs : s.ilen ≤ s.cfg.ibufDepth) :
    ∃ m r, ∀ u : State, u.cfg = s.cfg → u.ibuf = s.ibuf →
      execPush b u = .next { u with ibuf := m, pending := some r } := by
  rcases hs.eq_or_lt with hfull | hroom
  · refine ⟨s.ibuf, rspWord .refused 0x00#8, fun u hc hi => ?_⟩
    have hfull_u : u.ilen = u.cfg.ibufDepth := by rw [State.ilen, hi, hc]; exact hfull
    rw [execPush_next_of_full b hfull_u, ← hi]
    rfl
  · refine ⟨s.ibuf ++ [b], rspWord .ok 0x00#8, fun u hc hi => ?_⟩
    have hroom_u : u.ilen < u.cfg.ibufDepth := by rw [State.ilen, hi, hc]; exact hroom
    rw [execPush_next_of_room b hroom_u, ← hi]
    rfl

/-- What `POP` does to `OPTR` and the response is settled by the output buffer and `OPTR`; the rest of the block it
leaves as it stands (R102). -/
theorem execPop_sees_output_only (hs : s.optr ≤ s.olen) :
    ∃ k r, ∀ u : State, u.obuf = s.obuf → u.optr = s.optr →
      execPop u = .next { u with optr := k, pending := some r } := by
  rcases hs.eq_or_lt with hnone | hleft
  · refine ⟨s.optr, rspWord .refused 0x00#8, fun u ho hp => ?_⟩
    have hnone_u : u.optr = u.olen := by rw [State.olen, ho, hp]; exact hnone
    rw [execPop_next_of_none_left hnone_u, ← hp]
    rfl
  · obtain ⟨d, hd⟩ : ∃ d, s.obuf[s.optr]? = some d := ⟨_, List.getElem?_eq_getElem hleft⟩
    refine ⟨s.optr + 1, rspWord .data d, fun u ho hp => ?_⟩
    have hread_u : u.memRead .obuf u.optr = .ok d := by rw [memRead_obuf_eq_ok, ho, hp, hd]
    rw [execPop_next_of_memRead hread_u, ← hp]
    rfl

/-- Settles O33: after either command the other one still sees what it saw before, so it does the same. -/
theorem pushAndPopAreIndependent : Obligations.PushAndPopAreIndependent := by
  intro s imm8 hs
  obtain ⟨m, r, hpush⟩ := execPush_sees_ibuf_only imm8 hs.ilen
  obtain ⟨k, r', hpop⟩ := execPop_sees_output_only hs.optr
  exact ⟨_, _, _, _, hpush s rfl rfl, hpop _ rfl rfl, hpop s rfl rfl, hpush _ rfl rfl,
    ⟨rfl, rfl, rfl, rfl⟩, rfl, rfl⟩

end Sys2Proof.Machine
end

section
/-! One edge at which the ports are known: the two handshakes, an edge without either, and a reset edge (spec rules R45,
R130, R132, R142). -/

namespace Sys2Proof.Machine

variable {s : State} {e : Edge} {rest : List Edge}

/-! ### The output ports and the handshakes at an edge -/

theorem State.cmdReady_of_rst (h : e.rst = true) : s.cmdReady e = false := by simp [State.cmdReady, h]

theorem State.rspValid_of_rst (h : e.rst = true) : s.rspValid e = false := by simp [State.rspValid, h]

theorem State.accepts_iff : s.accepts e = true ↔ e.rst = false ∧ e.cmdValid = true ∧ s.pending = none := by
  simp only [State.accepts, State.cmdReady, Bool.and_eq_true, Bool.not_eq_true', Option.isNone_iff_eq_none]
  tauto

theorem State.delivers_iff : s.delivers e = true ↔ e.rst = false ∧ e.rspReady = true ∧ s.pending ≠ none := by
  simp only [State.delivers, State.rspValid, Bool.and_eq_true, Bool.not_eq_true', Option.isSome_iff_ne_none]
  tauto

/-! ### The step at an edge -/

theorem State.pastEdge_of_inputs (h : s.inputs = e :: rest) : s.pastEdge = { s with inputs := rest } := by
  rw [State.pastEdge, h, List.tail_cons]

theorem step_of_inputs (h : s.inputs = e :: rest) : step s = clockEdge e { s with inputs := rest } := by
  rw [step, stepEdge, h, ← State.pastEdge_of_inputs h]

theorem clockEdge_of_rst (h : e.rst = true) : clockEdge e s = .next s.resetBlock := if_pos h

/-- An edge without reset at which neither handshake takes place changes nothing (R142). -/
theorem clockEdge_of_no_handshake (hrst : e.rst = false) (hacc : ¬s.accepts e = true) (hdel : ¬s.delivers e = true) :
    clockEdge e s = .next s := by
  rw [clockEdge, if_neg (Bool.eq_false_iff.1 hrst), if_neg hacc, if_neg hdel]

/-- Settles O8: an idle block that is offered nothing neither accepts nor has a response to deliver; one whose response
is not taken neither delivers nor is ready. -/
theorem blockWaitsForTheHost : Obligations.BlockWaitsForTheHost := by
  intro s e rest hin hrst
  rw [step_of_inputs hin]
  refine ⟨fun hidle hoffer => ?_, fun r hflight htake => ?_⟩
  · exact clockEdge_of_no_handshake hrst (by simp [State.accepts_iff, hoffer]) (by simp [State.delivers_iff, hidle])
  · exact clockEdge_of_no_handshake hrst (by simp [State.accepts_iff, hflight]) (by simp [State.delivers_iff, htake])

/-- Settles O9: the reset of the block is the reset state of its parameter with the host's drive and record. -/
theorem resetEdgeAbandonsTheCommand : Obligations.ResetEdgeAbandonsTheCommand := by
  intro s e rest hin hrst
  refine ⟨State.cmdReady_of_rst hrst, State.rspValid_of_rst hrst, ?_⟩
  rw [step_of_inputs hin, clockEdge_of_rst hrst]
  rfl

end Sys2Proof.Machine
end

section
/-! The command word and its encoding both ways, and the rows of the opcode table (spec rules R51 to R54). -/

namespace Sys2Proof

/-- Two rows that give some bit of their common mask different values are selected by no common word. -/
theorem OpcodeRow.not_selects_both {r r' : OpcodeRow} {w : CmdWord}
    (h : r.pattern &&& r'.mask ≠ r'.pattern &&& r.mask) : ¬(r.selects w = true ∧ r'.selects w = true) := by
  rintro ⟨hr, hr'⟩
  have hr : w &&& r.mask = r.pattern := eq_of_beq hr
  have hr' : w &&& r'.mask = r'.pattern := eq_of_beq hr'
  refine h ?_
  rw [← hr, ← hr', BitVec.and_assoc, BitVec.and_assoc, BitVec.and_comm r.mask]

theorem opcodeTable_disjoint :
    opcodeTable.Pairwise (fun r r' => r.pattern &&& r'.mask ≠ r'.pattern &&& r.mask) := by decide

/-- Of entries no two of which are selected together at most one is selected. -/
theorem length_filter_le_one_of_pairwise {α : Type} {p : α → Bool} {l : List α}
    (h : l.Pairwise (fun a b => ¬(p a = true ∧ p b = true))) : (l.filter p).length ≤ 1 := by
  have hp : ∀ a ∈ l.filter p, p a = true := fun a ha => (List.mem_filter.1 ha).2
  match l.filter p, h.filter p, hp with
  | [], _, _ => exact Nat.zero_le 1
  | [_], _, _ => exact Nat.le_refl 1
  | a :: b :: _, hpair, hp =>
    exact absurd ⟨hp a (by simp), hp b (by simp)⟩ (List.rel_of_pairwise_cons hpair List.mem_cons_self)

theorem opcField_mkWord (opc : BitVec 4) (imm8 : Byte) : opcField (mkWord opc imm8) = opc :=
  BitVec.extractLsb'_append_eq_left

end Sys2Proof

namespace Sys2Proof.Machine

/-- Settles O3: one direction is the round trip of a command, the other that the decoder drops no bit. -/
theorem decodeExactlyInvertsEncode : Obligations.DecodeExactlyInvertsEncode :=
  fun _ i => ⟨encode_of_decode, fun h => h ▸ decode_encode i⟩

/-- Settles O1: the nine words are the encodings of their commands; the two others are reserved by their fields. -/
theorem writtenOutWordsDecode : Obligations.WrittenOutWordsDecode :=
  ⟨decode_encode .nop, decode_encode (.push 0xA5#8), decode_encode .pop, decode_encode .stat, decode_encode .clr,
    decode_encode .enc, decode_encode .dec, decode_encode .encr, decode_encode .decr,
    decode_of_strayImmediate (i := .enc) (by decide) (by decide) rfl, decode_of_unassignedOpcode (by decide) rfl⟩

/-- The row of `PUSH` puts no condition on the immediate, and every other row has another opcode. -/
theorem selects_push_iff (b : Byte) :
    ∀ row ∈ opcodeTable, row.selects (encode (.push b)) = true ↔ row.mnemonic = mnemonic (.push b) := by
  have hopc : opcField (encode (.push b)) = 0x1#4 := opcField_mkWord _ _
  simp only [opcodeTable, List.forall_mem_cons, OpcodeRow.selects_iff, hopc, mnemonic]
  simp [opcField, immField]

/-- Settles O4: the rows differ pairwise in a bit that both look at, so no word selects two. -/
theorem tableRowsSelectTheirCommands : Obligations.TableRowsSelectTheirCommands := by
  refine ⟨fun w => length_filter_le_one_of_pairwise (opcodeTable_disjoint.imp OpcodeRow.not_selects_both), fun i => ?_⟩
  cases i with
  | push b => exact selects_push_iff b
  | nop | pop | stat | clr | enc | dec | encr | decr => decide

end Sys2Proof.Machine
end

section
/-! The listing form (spec rule R55): a byte written as two hexadecimal digits reads back, and neither digit is a
character that the reader of a line looks for. -/

namespace Sys2Proof.Machine

theorem hexChar_mod (n : Nat) : hexChar (n % 16) = hexChar n := by simp only [hexChar, Nat.mod_mod]

theorem digit?_hexChar : ∀ n < 16, digit? 16 (hexChar n) = some n := by decide

/-- No space, no start of a comment and no quote. -/
def PlainChar (c : Char) : Prop := c ≠ ' ' ∧ c ≠ ';' ∧ c ≠ '\''

theorem hexChar_plain (n : Nat) : PlainChar (hexChar n) := by
  have hplain : ∀ m < 16, hexChar m ≠ ' ' ∧ hexChar m ≠ ';' ∧ hexChar m ≠ '\'' := by decide
  exact hexChar_mod n ▸ hplain (n % 16) (Nat.mod_lt n (by decide))

theorem hexDigits_two (n : Nat) : hexDigits 2 n = [hexChar (n / 16), hexChar (n % 16)] := by
  rw [hexChar_mod]
  simp [hexDigits, List.range_succ, Nat.shiftRight_eq_div_pow]

/-- A hexadecimal literal of two digits is the byte whose digits it has. -/
theorem parseOperand_hexDigits (b : Byte) : parseOperand ('0' :: 'x' :: hexDigits 2 b.toNat) = some b := by
  have hb : b.toNat < 256 := b.isLt
  have hhi := digit?_hexChar (b.toNat / 16) (by omega)
  have hlo := digit?_hexChar (b.toNat % 16) (by omega)
  have hvalue : b.toNat / 16 * 16 + b.toNat % 16 = b.toNat := Nat.div_add_mod' _ _
  simp [parseOperand, hexDigits_two, digits?, hhi, hlo, hvalue, byte?, hb]

/-- A line `PUSH 0x..` is the command `PUSH` with the literal's value: nothing is cut from it but the space after the
mnemonic. -/
theorem assembleLine_push_hex {x y : Char} (hx : PlainChar x) (hy : PlainChar y) :
    assembleLine ("PUSH 0x".toList ++ [x, y]) = (parseOperand ['0', 'x', x, y]).map (fun b => some (.push b)) := by
  obtain ⟨_, hx_comment, hx_quote⟩ := hx
  obtain ⟨hy_space, hy_comment, hy_quote⟩ := hy
  simp [assembleLine, stripComment, trimSpaces, hx_quote, hy_space, hy_quote]

/-- Settles O6: `PUSH` is written with a literal of its operand, every other command as its mnemonic alone. -/
theorem listingAssemblesBack : Obligations.ListingAssemblesBack := by
  intro i
  cases i with
  | push b =>
    have hshow : showWord (encode (.push b)) = "PUSH 0x".toList ++ hexDigits 2 b.toNat := by
      rw [showWord, decode_encode]
    rw [hshow, hexDigits_two, assembleLine_push_hex (hexChar_plain _) (hexChar_plain _), ← hexDigits_two,
      parseOperand_hexDigits]
    rfl
  | nop | pop | stat | clr | enc | dec | encr | decr => decide

end Sys2Proof.Machine
end

section
/-! The invariant at reset and at a step, and the widths of the counters (spec rules R6, R14, R46). -/

namespace Sys2Proof.Machine

theorem State.Inv.memory_wf {s : State} (hs : s.Inv) : Memory.wf s = true := (Memory.wf_iff s).2 ⟨hs.ilen, hs.olen⟩

/-- Settles O15: every kind of edge keeps the invariant, and the invariant bounds what the storage holds. -/
theorem stepKeepsTheInvariant : Obligations.StepKeepsTheInvariant := by
  intro s t hs h
  have ht : t.Inv := step_keeps_inv hs h
  exact ⟨ht, ht.memory_wf⟩

/-- Settles O16: no drive of the ports stops a block that meets the invariant. -/
theorem stepNeverStops : Obligations.StepNeverStops := fun _ => step_completes

/-- Settles O14: the reset state is an empty block, whatever the depth. -/
theorem resetMeetsTheInvariant : Obligations.ResetMeetsTheInvariant :=
  ⟨fun _ hc => .resetAt (of_decide_eq_true hc) [], .resetAt (by decide) [], Memory.wf_reset⟩

/-- `leastWidth n` is the least `w` with `n < 2^w`: a search through `0 .. n`, which ends because `n < 2^n` (R6). -/
theorem lt_two_pow_iff_leastWidth_le {n w : Nat} : n < 2 ^ w ↔ Config.leastWidth n ≤ w := by
  obtain ⟨v, hv⟩ : ∃ v, (List.range (n + 1)).find? (fun w => decide (n < 2 ^ w)) = some v :=
    Option.isSome_iff_exists.1 (List.find?_isSome.2
      ⟨n, List.mem_range.2 n.lt_succ_self, decide_eq_true Nat.lt_two_pow_self⟩)
  have hleast : Config.leastWidth n = v := by rw [Config.leastWidth, hv, Option.getD_some]
  obtain ⟨hfits, _, hbelow⟩ := List.find?_range_eq_some.1 hv
  rw [hleast]
  refine ⟨fun hw => Nat.le_of_not_lt fun hlt => ?_, fun hle => ?_⟩
  · exact absurd hw (by simpa using hbelow w hlt)
  · exact (of_decide_eq_true hfits).trans_le (Nat.pow_le_pow_right (by decide) hle)

/-- Settles O18: a counter is at most its buffer's depth, which its width holds. -/
theorem countersFitTheirWidths : Obligations.CountersFitTheirWidths := by
  refine ⟨fun s hs => ?_, fun c w => ⟨lt_two_pow_iff_leastWidth_le, lt_two_pow_iff_leastWidth_le⟩⟩
  have hibuf : s.cfg.ibufDepth < 2 ^ s.cfg.ilenW := lt_two_pow_iff_leastWidth_le.2 le_rfl
  have hobuf : s.cfg.obufDepth < 2 ^ s.cfg.olenW := lt_two_pow_iff_leastWidth_le.2 le_rfl
  exact ⟨hs.ilen.trans_lt hibuf, hs.olen.trans_lt hobuf, (hs.optr.trans hs.olen).trans_lt hobuf⟩

end Sys2Proof.Machine
end

section
/-! An edge at which a handshake takes place, and what a step does to the ports and the host's record (spec rules R40,
R45, R46). -/

namespace Sys2Proof.Machine

variable {s t : State} {e : Edge} {rest : List Edge} {w : CmdWord} {r : RspWord}

theorem clockEdge_of_accepts (h : s.accepts e = true) : clockEdge e s = acceptWord e.cmd s := by
  obtain ⟨hrst, _, _⟩ := State.accepts_iff.1 h
  rw [clockEdge, if_neg (Bool.eq_false_iff.1 hrst), if_pos h]

theorem clockEdge_of_delivers (hrst : e.rst = false) (hp : s.pending = some r) (htake : e.rspReady = true) :
    clockEdge e s = .next (s.deliver r) := by
  have hacc : ¬s.accepts e = true := by simp [State.accepts_iff, hp]
  have hdel : s.delivers e = true := State.delivers_iff.2 ⟨hrst, htake, by simp [hp]⟩
  rw [clockEdge, if_neg (Bool.eq_false_iff.1 hrst), if_neg hacc, if_pos hdel, hp, Option.elim_some]

/-- An idle block accepts the word it is offered. -/
theorem step_of_offer (hin : s.inputs = e :: rest) (hrst : e.rst = false) (hoffer : e.cmdValid = true)
    (hidle : s.pending = none) : step s = acceptWord e.cmd { s with inputs := rest } :=
  (step_of_inputs hin).trans (clockEdge_of_accepts (State.accepts_iff.2 ⟨hrst, hoffer, hidle⟩))

/-- A response in flight is delivered when the host takes it. -/
theorem step_of_take (hin : s.inputs = e :: rest) (hrst : e.rst = false) (htake : e.rspReady = true)
    (hp : s.pending = some r) :
    step s = .next { s with pending := none, responses := s.responses ++ [r], inputs := rest } :=
  (step_of_inputs hin).trans (clockEdge_of_delivers hrst hp htake)

/-- Every word leaves a response and writes neither the parameter nor the host's drive and record. -/
theorem acceptWord_host (h : acceptWord w s = .next t) : s.SameHost t ∧ ∃ r, t.pending = some r := by
  cases hw : decode w with
  | ok i => exact exec_host (acceptWord_ok hw s ▸ h)
  | error why =>
    obtain rfl := refuse_eq_next.1 (acceptWord_error hw s ▸ h)
    exact ⟨⟨rfl, rfl, rfl⟩, _, rfl⟩

/-- Settles O7: an accepted word that decodes is its command. -/
theorem stepRunsTheDecodedCommand : Obligations.StepRunsTheDecodedCommand := by
  intro s e rest i hin hrst hoffer hidle hw
  rw [step_of_offer hin hrst hoffer hidle, acceptWord_ok hw]

/-- Settles O10: with a response in flight the edge delivers it or is one without a handshake. -/
theorem oneCommandInFlight : Obligations.OneCommandInFlight := by
  intro s t e rest r hin hrst hp hstep
  have hready : s.cmdReady e = false := by simp [State.cmdReady, hp]
  have hacc : s.accepts e = false := by simp [State.accepts, hready]
  refine ⟨hready, hacc, ?_⟩
  cases htake : e.rspReady with
  | true =>
    obtain rfl := Host.Outcome.next.inj ((step_of_take hin hrst htake hp).symm.trans hstep)
    exact ⟨⟨rfl, rfl, rfl, rfl⟩, rfl, fun _ => ⟨rfl, rfl⟩, nofun⟩
  | false =>
    have hkeep : step s = .next { s with inputs := rest } := (blockWaitsForTheHost s e rest hin hrst).2 r hp htake
    obtain rfl := Host.Outcome.next.inj (hkeep.symm.trans hstep)
    exact ⟨⟨rfl, rfl, rfl, rfl⟩, rfl, nofun, fun _ => ⟨hp, rfl⟩⟩

/-- Settles O11: the word completes by the invariant and leaves its response in flight, which the next edge takes. -/
theorem transactionAnswersOnce : Obligations.TransactionAnswersOnce := by
  intro s w rest hs hidle hin
  have hs' : ({ s with inputs := Edge.take :: rest } : State).Inv := hs.of_sameBlock rfl ⟨rfl, rfl, rfl, rfl⟩
  obtain ⟨t, ht⟩ := acceptWord_completes hs' w
  obtain ⟨⟨_, hin_t, hresp_t⟩, r, hr⟩ := acceptWord_host ht
  refine ⟨t, _, r, ht, hr, ?_, step_of_take hin_t rfl rfl hr, ?_⟩
  · exact (step_of_offer hin rfl rfl hidle).trans ht
  · rw [hresp_t]

/-- Settles O12: only the edge that delivers writes the record, and it writes nothing of the block. -/
theorem responsesLeaveInOrder : Obligations.ResponsesLeaveInOrder := by
  intro s t h
  refine ⟨step_cfg h, ?_⟩
  rcases step_eq_next h with ⟨hnone, rfl⟩ | ⟨e, rest, _, hedge⟩
  · exact ⟨by rw [hnone, List.tail_nil], .inl rfl⟩
  · rcases hedge with ⟨_, rfl⟩ | ⟨_, _, _, hacc⟩ | ⟨_, r, hr, _, rfl⟩ | ⟨_, _, rfl⟩
    · exact ⟨rfl, .inl rfl⟩
    · obtain ⟨⟨_, hin, hresp⟩, _⟩ := acceptWord_host hacc
      exact ⟨hin, .inl hresp⟩
    · exact ⟨rfl, .inr ⟨r, hr, rfl, rfl, rfl, rfl, rfl, rfl⟩⟩
    · exact ⟨rfl, .inl rfl⟩

end Sys2Proof.Machine
end

section
/-! What each command does to `ERR`, and that no command depends on it (spec rules R15, R118). -/

namespace Sys2Proof.Machine

variable {i : Instr} {s t : State}

theorem exec_err_of_buffer_command (hi : i = .nop ∨ (∃ b, i = .push b) ∨ i = .pop ∨ i = .stat)
    (h : exec i s = .next t) : t.err = s.err := by
  rw [exec_eq_next] at h
  rcases hi with rfl | ⟨b, rfl⟩ | rfl | rfl
  · exact h ▸ rfl
  · rcases h with ⟨_, rfl⟩ | ⟨_, rfl⟩ <;> rfl
  · rcases h with ⟨_, rfl⟩ | ⟨_, _, rfl⟩ <;> rfl
  · exact h ▸ rfl

theorem runEncode_err {p : Policy} (h : runEncode p s = .next t) : t.err = false := by
  obtain ⟨_, rfl⟩ := runEncode_eq_next.1 h
  rfl

theorem runDecode_err {p : Policy} (h : runDecode p s = .next t) : t.err = true ↔ s.HasNonMember := by
  rw [State.hasNonMember_iff]
  rcases runDecode_eq_next.1 h with ⟨hinvalid, rfl⟩ | ⟨Q, hvalid, _, rfl⟩
  · exact iff_of_true rfl hinvalid
  · exact iff_of_false nofun (by simp [hvalid])

theorem execClr_err (h : exec .clr s = .next t) : t.err = false := by
  obtain rfl := exec_eq_next.1 h
  rfl

/-- Only a decode of a message with a non-member turns `ERR` from 0 to 1. -/
theorem raises_of_exec_sets_err (h : exec i s = .next t) (hs : s.err = false) (ht : t.err = true) : Raises i s := by
  have hchange : t.err ≠ s.err := by simp [hs, ht]
  cases i with
  | nop | push | pop | stat => exact absurd (exec_err_of_buffer_command (by simp) h) hchange
  | clr => exact absurd (execClr_err h) (by simp [ht])
  | enc | encr => exact absurd (runEncode_err h) (by simp [ht])
  | dec => exact ⟨.inl rfl, (runDecode_err h).1 ht⟩
  | decr => exact ⟨.inr rfl, (runDecode_err h).1 ht⟩

theorem acceptWord_sets_err {w : CmdWord} (h : acceptWord w s = .next t) (hs : s.err = false) (ht : t.err = true) :
    (w = 0x900#12 ∨ w = 0xB00#12) ∧ s.HasNonMember := by
  cases hw : decode w with
  | ok i => exact (raises_iff_word hw).1 (raises_of_exec_sets_err (acceptWord_ok hw s ▸ h) hs ht)
  | error why =>
    obtain rfl := refuse_eq_next.1 (acceptWord_error hw s ▸ h)
    exact absurd hs (by simpa using ht)

/-- Settles O23: a step that writes `ERR` resets the block, and so clears it, or accepts a word. -/
theorem whoWritesErr : Obligations.WhoWritesErr := by
  refine ⟨fun s t b => ⟨?_, ?_, ?_, ?_, execClr_err, runEncode_err, runEncode_err, runDecode_err, runDecode_err⟩,
    fun s t h hs ht => ?_⟩
  · exact exec_err_of_buffer_command (.inl rfl)
  · exact exec_err_of_buffer_command (.inr (.inl ⟨b, rfl⟩))
  · exact exec_err_of_buffer_command (.inr (.inr (.inl rfl)))
  · exact exec_err_of_buffer_command (.inr (.inr (.inr rfl)))
  · rcases step_eq_next h with ⟨_, rfl⟩ | ⟨e, rest, hin, hedge⟩
    · exact absurd hs (by simp [ht])
    · rcases hedge with ⟨_, rfl⟩ | ⟨hrst, hidle, hoffer, hacc⟩ | ⟨_, r, _, _, rfl⟩ | ⟨_, _, rfl⟩
      · exact nomatch ht
      · exact ⟨e, rest, hin, State.accepts_iff.2 ⟨hrst, hoffer, hidle⟩,
          acceptWord_sets_err (s := s.pastEdge) hacc hs ht⟩
      · exact absurd hs (by simpa using ht)
      · exact absurd hs (by simpa using ht)

/-- Settles O24: no command's condition or result but `STAT`'s reads `ERR`. -/
theorem errGatesNothing : Obligations.ErrGatesNothing := by
  intro i s t err hstat h
  rw [exec_eq_next] at h
  cases i with
  | stat => exact absurd rfl hstat
  | nop | clr => exact h ▸ ⟨_, exec_eq_next.2 rfl, rfl, rfl, rfl, rfl⟩
  | push b =>
    rcases h with ⟨hfull, rfl⟩ | ⟨hroom, rfl⟩
    · exact ⟨_, exec_eq_next.2 (.inl ⟨hfull, rfl⟩), rfl, rfl, rfl, rfl⟩
    · exact ⟨_, exec_eq_next.2 (.inr ⟨hroom, rfl⟩), rfl, rfl, rfl, rfl⟩
  | pop =>
    rcases h with ⟨hnone, rfl⟩ | ⟨d, hd, rfl⟩
    · exact ⟨_, exec_eq_next.2 (.inl ⟨hnone, rfl⟩), rfl, rfl, rfl, rfl⟩
    · exact ⟨_, exec_eq_next.2 (.inr ⟨d, hd, rfl⟩), rfl, rfl, rfl, rfl⟩
  | enc | encr =>
    obtain ⟨hfits, rfl⟩ := h
    exact ⟨_, exec_eq_next.2 ⟨hfits, rfl⟩, rfl, rfl, rfl, rfl⟩
  | dec | decr =>
    rcases h with ⟨hinvalid, rfl⟩ | ⟨Q, hvalid, hfits, rfl⟩
    · exact ⟨_, exec_eq_next.2 (.inl ⟨hinvalid, rfl⟩), rfl, rfl, rfl, rfl⟩
    · exact ⟨_, exec_eq_next.2 (.inr ⟨Q, hvalid, hfits, rfl⟩), rfl, rfl, rfl, rfl⟩

end Sys2Proof.Machine
end

section
/-! The frames of the commands (spec rules R12, R37, R90, R100 to R104). -/

namespace Sys2Proof.Machine

variable {s t : State}

/-- Settles O30: these commands write no buffer, so every read sees what it saw. -/
theorem frameOfNopStatPop : Obligations.FrameOfNopStatPop := by
  intro i s t hi h
  have hhost : s.SameHost t := (exec_host h).1
  have hframe : t.ibuf = s.ibuf ∧ t.obuf = s.obuf ∧ t.err = s.err ∧ (i ≠ .pop → t.optr = s.optr) := by
    rw [exec_eq_next] at h
    rcases hi with rfl | rfl | rfl
    · exact h ▸ ⟨rfl, rfl, rfl, fun _ => rfl⟩
    · exact h ▸ ⟨rfl, rfl, rfl, fun _ => rfl⟩
    · rcases h with ⟨_, rfl⟩ | ⟨_, _, rfl⟩ <;> exact ⟨rfl, rfl, rfl, fun hne => absurd rfl hne⟩
  obtain ⟨hibuf, hobuf, herr, hoptr⟩ := hframe
  exact ⟨memRead_congr hibuf hobuf, hhost, congrArg List.length hibuf, congrArg List.length hobuf, herr, hoptr⟩

/-- Settles O31: a refused `PUSH` stores nothing, and the other one appends. -/
theorem frameOfPush : Obligations.FrameOfPush := by
  intro b s t h
  have hhost : s.SameHost t := (exec_host h).1
  rcases execPush_eq_next.1 h with ⟨_, rfl⟩ | ⟨_, rfl⟩
  · exact ⟨fun _ _ _ => rfl, hhost, rfl, rfl, rfl⟩
  · exact ⟨fun _ _ hother => memRead_appendInput_other b s hother, hhost, rfl, rfl, rfl⟩

/-- A command that runs over the input message or clears the buffers leaves no input and rewinds `OPTR`. -/
theorem exec_consumes_input {i : Instr} (hi : i = .enc ∨ i = .encr ∨ i = .dec ∨ i = .decr ∨ i = .clr)
    (h : exec i s = .next t) : t.ilen = 0 ∧ t.optr = 0 := by
  rw [exec_eq_next] at h
  rcases hi with rfl | rfl | rfl | rfl | rfl
  · obtain ⟨_, rfl⟩ := h
    exact ⟨rfl, rfl⟩
  · obtain ⟨_, rfl⟩ := h
    exact ⟨rfl, rfl⟩
  · rcases h with ⟨_, rfl⟩ | ⟨_, _, _, rfl⟩ <;> exact ⟨rfl, rfl⟩
  · rcases h with ⟨_, rfl⟩ | ⟨_, _, _, rfl⟩ <;> exact ⟨rfl, rfl⟩
  · exact h ▸ ⟨rfl, rfl⟩

/-- Settles O32: with `ILEN = 0` every entry of `IBUF` is past the end, and the `ROM` is a constant. -/
theorem frameOfRunCommandsAndClr : Obligations.FrameOfRunCommandsAndClr := by
  intro i s t hi h
  obtain ⟨hilen, hoptr⟩ := exec_consumes_input hi h
  exact ⟨fun _ => rfl, fun _ => memRead_ibuf_past (hilen ▸ Nat.zero_le _), fun _ => memRead_obuf_past,
    (exec_host h).1, hoptr⟩

end Sys2Proof.Machine
end

section
/-! Programs of several commands (spec rules R40, R46, R56): one equation per first command, whole messages pushed and
popped, and the run of a program through the ports. -/

namespace Sys2Proof.Machine

variable {s t u : State} {i : Instr} {r : RspWord}

/-- The first command of a program, its response taken. -/
theorem execAll_cons (h : exec i s = .next t) (hr : t.pending = some r) (is : List Instr) :
    execAll (i :: is) s = (execAll is { t with pending := none }).map (fun p => (r :: p.1, p.2)) := by
  simp only [execAll, h, hr]

/-- A program that completes has a first command that does. -/
theorem execAll_cons_eq_some {is : List Instr} {rs : List RspWord} (h : execAll (i :: is) s = some (rs, u)) :
    ∃ t r rs', exec i s = .next t ∧ t.pending = some r ∧ execAll is { t with pending := none } = some (rs', u) ∧
      rs = r :: rs' := by
  cases hexec : exec i s with
  | fault f => simp [execAll, hexec] at h
  | refused f => simp [execAll, hexec] at h
  | next t =>
    obtain ⟨_, r, hr⟩ := exec_host hexec
    rw [execAll_cons hexec hr, Option.map_eq_some_iff] at h
    obtain ⟨⟨rs', u'⟩, hrest, heq⟩ := h
    obtain ⟨rfl, rfl⟩ := Prod.mk.inj heq
    exact ⟨t, r, rs', rfl, hr, hrest, rfl⟩

theorem execAll_append {is js : List Instr} {rs : List RspWord} (h : execAll is s = some (rs, u)) :
    execAll (is ++ js) s = (execAll js u).map (fun p => (rs ++ p.1, p.2)) := by
  induction is generalizing s rs with
  | nil =>
    obtain ⟨rfl, rfl⟩ := Prod.mk.inj (Option.some.inj h)
    simp
  | cons i is ih =>
    obtain ⟨t, r, rs', hexec, hr, hrest, rfl⟩ := execAll_cons_eq_some h
    rw [List.cons_append, execAll_cons hexec hr, ih hrest, Option.map_map]
    rfl

/-- The first command of a program, in terms of the idle state it leaves once its response is taken. -/
theorem execAll_cons_respond {v : State} {c : ResponseCode} {d : Byte} (h : exec i s = .next (v.respond c d))
    (hidle : v.pending = none) (is : List Instr) :
    execAll (i :: is) s = (execAll is v).map (fun p => (rspWord c d :: p.1, p.2)) := by
  have hv : ({ v with pending := none } : State) = v := by rw [← hidle]
  exact (execAll_cons h rfl is).trans (congrArg (fun u => (execAll is u).map _) hv)

/-! ### Messages pushed and popped whole -/

theorem execAll_push_of_room {b : Byte} (hidle : s.pending = none) (hroom : s.ilen < s.cfg.ibufDepth)
    (is : List Instr) :
    execAll (.push b :: is) s = (execAll is (s.appendInput b)).map (fun p => (0x000#10 :: p.1, p.2)) :=
  execAll_cons_respond (i := .push b) (execPush_next_of_room b hroom) hidle is

theorem execAll_push_of_full {b : Byte} (hidle : s.pending = none) (hfull : s.ilen = s.cfg.ibufDepth)
    (is : List Instr) :
    execAll (.push b :: is) s = (execAll is s).map (fun p => (0x200#10 :: p.1, p.2)) :=
  execAll_cons_respond (i := .push b) (execPush_next_of_full b hfull) hidle is

theorem execAll_pop_of_left {d : Byte} (hidle : s.pending = none) (hd : s.memRead .obuf s.optr = .ok d)
    (is : List Instr) :
    execAll (.pop :: is) s = (execAll is s.advanceOptr).map (fun p => ((0x100#10 ||| d.setWidth 10) :: p.1, p.2)) :=
  execAll_cons_respond (i := .pop) (execPop_next_of_memRead hd) hidle is

theorem execAll_pop_of_none_left (hidle : s.pending = none) (hnone : s.optr = s.olen) (is : List Instr) :
    execAll (.pop :: is) s = (execAll is s).map (fun p => (0x200#10 :: p.1, p.2)) :=
  execAll_cons_respond (i := .pop) (execPop_next_of_none_left hnone) hidle is

/-- Settles O34, by induction on the bytes: each finds room and leaves room for the rest. -/
theorem pushesBuildTheMessage : Obligations.PushesBuildTheMessage := by
  intro bs
  induction bs with
  | nil =>
    intro s _ _
    simp [pushb, execAll]
  | cons b bs ih =>
    intro s hidle hroom
    rw [List.length_cons] at hroom
    have hrest : execAll (pushb bs) (s.appendInput b) = _ := ih (s.appendInput b) hidle (by
      simp only [State.ilen_appendInput, State.appendInput_cfg]
      omega)
    rw [pushb, List.map_cons, execAll_push_of_room hidle (by omega), ← pushb, hrest]
    simp [List.replicate_succ, State.appendInput]

/-- A full input buffer refuses every byte. -/
theorem execAll_pushb_of_full (bs : List Byte) (hidle : s.pending = none) (hfull : s.ilen = s.cfg.ibufDepth) :
    execAll (pushb bs) s = some (List.replicate bs.length 0x200#10, s) := by
  induction bs with
  | nil => rfl
  | cons b bs ih =>
    rw [pushb, List.map_cons, execAll_push_of_full hidle hfull, ← pushb, ih]
    rfl

/-- A message longer than the room for it ends with a refusal: what fits is appended, and the rest is refused. -/
theorem execAll_pushb_of_overflow {bs : List Byte} (hidle : s.pending = none) (hs : s.ilen ≤ s.cfg.ibufDepth)
    (hover : s.cfg.ibufDepth < s.ilen + bs.length) :
    ∃ rs u, execAll (pushb bs) s = some (rs, u) ∧ rs.getLast? = some 0x200#10 := by
  obtain ⟨room, hroom⟩ := Nat.exists_eq_add_of_le hs
  have htake : (bs.take room).length = room := List.length_take_of_le (by omega)
  have hfit : execAll (pushb (bs.take room)) s = _ :=
    pushesBuildTheMessage _ s hidle (by rw [htake, hroom])
  have hfull : (s.ibuf ++ bs.take room).length = s.cfg.ibufDepth := by rw [List.length_append, htake, hroom, State.ilen]
  have hrest := execAll_pushb_of_full (s := { s with ibuf := s.ibuf ++ bs.take room }) (bs.drop room) hidle hfull
  have hpush : pushb bs = pushb (bs.take room) ++ pushb (bs.drop room) := by
    rw [pushb, pushb, pushb, ← List.map_append, List.take_append_drop]
  have hrefused : bs.length - room ≠ 0 := by omega
  refine ⟨_, _, by rw [hpush, execAll_append hfit, hrest]; rfl, ?_⟩
  simp [List.getLast?_append, List.getLast?_replicate, hrefused]

/-- `POPALL` with `n` entries of the output left, by induction on `n`. -/
theorem execAll_popn (n : Nat) (hidle : s.pending = none) (hn : s.optr + n = s.olen) :
    execAll (popn (n + 1)) s =
      some ((s.obuf.drop s.optr).map (fun d => 0x100#10 ||| d.setWidth 10) ++ [0x200#10],
        { s with optr := s.olen }) := by
  induction n generalizing s with
  | zero =>
    have hdrop : s.obuf.drop s.optr = [] := List.drop_eq_nil_of_le (Nat.le_of_eq hn.symm)
    have hs : { s with optr := s.olen } = s := by rw [← hn]; rfl
    rw [popn, List.replicate_succ, execAll_pop_of_none_left hidle hn, hdrop, hs]
    rfl
  | succ n ih =>
    have hlt : s.optr < s.obuf.length := by rw [State.olen] at hn; omega
    have hrest := ih (s := s.advanceOptr) hidle (by
      rw [State.advanceOptr_optr, State.olen_advanceOptr]
      omega)
    rw [popn, List.replicate_succ, execAll_pop_of_left hidle (memRead_obuf_valid hlt), ← popn, hrest,
      List.drop_eq_getElem_cons hlt]
    rfl

/-- Settles O35: `POPALL` pops what is left, and once more. -/
theorem popallReturnsTheMessage : Obligations.PopallReturnsTheMessage :=
  fun s hs hidle => execAll_popn (s.olen - s.optr) hidle (Nat.add_sub_of_le hs.optr)

/-! ### Through the ports -/

/-- The state with another drive and record of the host. -/
def State.withHost (drive : List Edge) (out : List RspWord) (s : State) : State :=
  { s with inputs := drive, responses := out }

/-- No command sees the host's drive or record. -/
theorem exec_withHost (drive : List Edge) (out : List RspWord) (h : exec i s = .next t) :
    exec i (s.withHost drive out) = .next (t.withHost drive out) := by
  rw [exec_eq_next] at h ⊢
  cases i with
  | nop | stat | clr => exact h ▸ rfl
  | push b =>
    rcases h with ⟨hfull, rfl⟩ | ⟨hroom, rfl⟩
    · exact .inl ⟨hfull, rfl⟩
    · exact .inr ⟨hroom, rfl⟩
  | pop =>
    rcases h with ⟨hnone, rfl⟩ | ⟨d, hd, rfl⟩
    · exact .inl ⟨hnone, rfl⟩
    · exact .inr ⟨d, hd, rfl⟩
  | enc | encr =>
    obtain ⟨hfits, rfl⟩ := h
    exact ⟨hfits, rfl⟩
  | dec | decr =>
    rcases h with ⟨hinvalid, rfl⟩ | ⟨Q, hvalid, hfits, rfl⟩
    · exact .inl ⟨hinvalid, rfl⟩
    · exact .inr ⟨Q, hvalid, hfits, rfl⟩

theorem run_succ (M : Host.Core) (s t : M.State) (k : Nat) (h : M.step s = .next t) :
    M.run (k + 1) s = M.run k t := by
  rw [Host.Core.run, h]

theorem run_succ_of_step (k : Nat) (h : step s = .next t) : Host.Core.run core (k + 1) s = Host.Core.run core k t :=
  run_succ core s t k h

/-- A command offered to an idle block and its response taken: two steps. -/
theorem run_transaction {rest : List Edge} {out : List RspWord} (k : Nat) (hidle : s.pending = none)
    (h : exec i s = .next t) (hr : t.pending = some r) :
    Host.Core.run core (k + 2) (s.withHost (transaction (encode i) ++ rest) out) =
      Host.Core.run core k (State.withHost rest (out ++ [r]) { t with pending := none }) := by
  have hoffer : (s.withHost (transaction (encode i) ++ rest) out).inputs =
    Edge.offer (encode i) :: Edge.take :: rest := rfl
  have haccept : step (s.withHost (transaction (encode i) ++ rest) out) = .next (t.withHost (Edge.take :: rest) out) :=
    calc step (s.withHost (transaction (encode i) ++ rest) out)
      _ = exec i (s.withHost (Edge.take :: rest) out) :=
        stepRunsTheDecodedCommand _ _ _ i hoffer rfl rfl hidle (decode_encode i)
      _ = .next (t.withHost (Edge.take :: rest) out) := exec_withHost _ out h
  have hdeliver : step (t.withHost (Edge.take :: rest) out) =
      .next (State.withHost rest (out ++ [r]) { t with pending := none }) := step_of_take rfl rfl rfl hr
  exact (run_succ_of_step (k + 1) haccept).trans (run_succ_of_step k hdeliver)

/-- A program run through the ports, whatever responses were recorded before, by induction on its commands. -/
theorem run_hostScript {is : List Instr} {rs : List RspWord} {rest : List Edge} (out : List RspWord)
    (hidle : s.pending = none) (h : execAll is s = some (rs, u)) :
    Host.Core.run core (2 * is.length) (s.withHost (hostScript (is.map encode) ++ rest) out) =
      .next (u.withHost rest (out ++ rs)) := by
  induction is generalizing s rs out with
  | nil =>
    obtain ⟨rfl, rfl⟩ := Prod.mk.inj (Option.some.inj h)
    rw [List.append_nil]
    rfl
  | cons i is ih =>
    obtain ⟨t, r, rs', hexec, hr, hrest, rfl⟩ := execAll_cons_eq_some h
    rw [List.map_cons, hostScript, List.flatMap_cons, ← hostScript, List.append_assoc, List.length_cons, Nat.mul_succ,
      run_transaction _ hidle hexec hr, ih _ rfl hrest, List.append_assoc, List.singleton_append]

/-- Settles O36: the record before is that of the idle state. -/
theorem hostScriptRunsTheCommands : Obligations.HostScriptRunsTheCommands :=
  fun _ s _ _ _ hidle h => run_hostScript s.responses hidle h

end Sys2Proof.Machine
end

section
/-! The run commands once more: `ENCR` and `DECR`, the symbols of an encode, and a decode's blindness to case (spec
rules R83, R91, R92, R97, R98). -/

namespace Sys2Proof.Machine

/-- Settles O43: the counts of R83 are those of the standard policy, whatever the values. -/
theorem rspamdLengthLaws : Obligations.RspamdLengthLaws :=
  ⟨fun B => ⟨packRsp_length_eq_count B, packRsp_length B, (packRsp_length B).trans (packStd_length B).symm,
      fun _ => packRsp_fits⟩,
    fun Q => ⟨unpackRsp_length_eq_count Q, unpackRsp_length Q, (unpackRsp_length Q).trans (unpackStd_length Q).symm,
      fun _ => unpackRsp_fits⟩⟩

/-- Settles O52: `ENCR` is the encode under the rspamd policy. -/
theorem encrEncodesTheMessage : Obligations.EncrEncodesTheMessage :=
  ⟨rfl, fun _ => runEncode_result .rspamd⟩

/-- Settles O54: `DECR` is the decode under the rspamd policy. -/
theorem decrDecodesOrRaises : Obligations.DecrDecodesOrRaises :=
  ⟨rfl, fun _ hs => ⟨fun _ => runDecode_result_of_members .rspamd hs, runDecode_result_of_nonMember .rspamd⟩⟩

theorem runEncode_obuf {p : Policy} {s t : State} (h : runEncode p s = .next t) : t.obuf = encodeMessage p s.ibuf := by
  obtain ⟨_, rfl⟩ := runEncode_eq_next.1 h
  rfl

/-- An encode emits entries of the table only (R61). -/
theorem mem_rom_of_mem_encodeMessage {p : Policy} {B : List Byte} {c : Byte} (h : c ∈ encodeMessage p B) : c ∈ rom := by
  obtain ⟨q, _, rfl⟩ := List.mem_map.1 h
  exact lutFwd_mem_rom q

/-- Settles O56: every entry of the table is a member in lower case. -/
theorem encodersEmitCanonicalSymbols : Obligations.EncodersEmitCanonicalSymbols := by
  intro i s t hi h c hc
  have hrom : c ∈ rom := by
    rcases hi with rfl | rfl
    · exact mem_rom_of_mem_encodeMessage (runEncode_obuf (p := .standard) h ▸ hc)
    · exact mem_rom_of_mem_encodeMessage (runEncode_obuf (p := .rspamd) h ▸ hc)
  exact ⟨hrom, rom_entries_canonical c hrom⟩

/-- Settles O57: messages with the same folds validate alike, and a decode sees its message through that only. -/
theorem decodersIgnoreCase : Obligations.DecodersIgnoreCase := by
  intro i s u hi hs hu h
  have hv : validate u.ibuf = validate s.ibuf := validate_congr h
  rcases hi with rfl | rfl
  · exact runDecode_sameResult .standard hs.ilen hu.ilen hv
  · exact runDecode_sameResult .rspamd hs.ilen hu.ilen hv

end Sys2Proof.Machine
end

section
/-! The lookup by the folded symbol (spec rules R62, R63, R66). -/

namespace Sys2Proof.Machine

variable {c : Byte} {q : Quantum}

theorem fold_of_upper (hlo : 0x41 ≤ c.toNat) (hhi : c.toNat ≤ 0x5A) : fold c = c + 0x20#8 :=
  if_pos ⟨hlo, hhi⟩

theorem fold_of_not_upper (h : c.toNat < 0x41 ∨ 0x5A < c.toNat) : fold c = c :=
  if_neg fun ⟨hlo, hhi⟩ => h.elim (fun h => absurd hlo (Nat.not_le_of_lt h)) fun h => absurd hhi (Nat.not_le_of_lt h)

theorem toNat_fold_of_upper (hlo : 0x41 ≤ c.toNat) (hhi : c.toNat ≤ 0x5A) : (fold c).toNat = c.toNat + 0x20 := by
  rw [fold_of_upper hlo hhi]
  bv_omega

/-- Settles O39: what a letter folds to is past the letters that fold. -/
theorem foldIsAsciiLowerCase : Obligations.FoldIsAsciiLowerCase := by
  refine fun c => ⟨toNat_fold_of_upper, fold_of_not_upper, ?_⟩
  by_cases hupper : 0x41 ≤ c.toNat ∧ c.toNat ≤ 0x5A
  · obtain ⟨hlo, hhi⟩ := hupper
    have hfold := toNat_fold_of_upper hlo hhi
    exact fold_of_not_upper (by omega)
  · have hfold : fold c = c := fold_of_not_upper (by omega)
    rw [hfold, hfold]

theorem rom_getElem?_eq_some {e : Byte} : rom[q.toNat]? = some e ↔ lutFwd q = e := by
  rw [List.getElem?_eq_getElem (rom_index_lt q), Option.some.injEq, lutFwd]

/-- A symbol is looked up to `q` when it folds to the symbol of `q`, which is its own fold (R63, R64). -/
theorem lutInv_eq_some_iff : lutInv c = some q ↔ lutFwd q = fold c := by
  refine ⟨lutFwd_of_lutInv, fun h => ?_⟩
  obtain ⟨_, hcanonical⟩ := rom_entries_canonical _ (lutFwd_mem_rom q)
  have hfold : fold c = fold (lutFwd q) := by rw [hcanonical, h]
  rw [lutInv_congr hfold, lutInv_of_lutFwd]

/-- The table holds ASCII codes. -/
theorem lutFwd_lt (q : Quantum) : (lutFwd q).toNat < 0x80 := by
  have hascii : ∀ e ∈ rom, e.toNat < 0x80 := by decide
  exact hascii _ (lutFwd_mem_rom q)

/-- Settles O38: the members are counted one by one; a code from `0x80` up is its own fold and no entry of the table. -/
theorem lutInvFindsTheFoldedSymbol : Obligations.LutInvFindsTheFoldedSymbol := by
  refine ⟨fun c q => lutInv_eq_some_iff.trans rom_getElem?_eq_some.symm, by decide, fun c hc => ?_⟩
  refine Option.eq_none_iff_forall_ne_some.2 fun q hq => ?_
  have hc : 0x80 ≤ c.toNat := hc
  have hentry : lutFwd q = c := (lutInv_eq_some_iff.1 hq).trans (fold_of_not_upper (by omega))
  exact absurd (hentry ▸ lutFwd_lt q) (by omega)

end Sys2Proof.Machine
end

section
/-! The packer as arithmetic (spec rules R8, R72, R75, R80, R82): a byte sequence and a quantum sequence are each the
digits of a value, and the four functions carry the one value over into the other. -/

namespace Sys2Proof.Machine

/-! ### Byte sequences and their values -/

theorem be_cons (b : Byte) (bs : List Byte) : be (b :: bs) = 2 ^ (8 * bs.length) * b.toNat + be bs := by
  rw [be, Nat.shiftLeft_eq, Nat.mul_comm]

/-- A byte sequence of a known length is its value. -/
theorem be_inj {B B' : List Byte} (hlen : B.length = B'.length) (h : be B = be B') : B = B' := by
  induction B generalizing B' with
  | nil => exact (List.length_eq_zero_iff.1 hlen.symm).symm
  | cons b bs ih =>
    obtain _ | ⟨b', bs'⟩ := B'
    · exact nomatch hlen
    · have hlen : bs.length = bs'.length := Nat.succ.inj hlen
      have hlt := be_lt bs
      have hlt' := be_lt bs'
      rw [be_cons, be_cons, ← hlen] at h
      rw [← hlen] at hlt'
      have hhead : b.toNat = b'.toNat := by
        have hquot := congrArg (· / 2 ^ (8 * bs.length)) h
        simpa [Nat.mul_add_div, Nat.div_eq_of_lt hlt, Nat.div_eq_of_lt hlt'] using hquot
      have htail : be bs = be bs' := by
        rw [hhead] at h
        exact Nat.add_left_cancel h
      rw [BitVec.eq_of_toNat_eq hhead, ih hlen htail]

theorem bytesBe_succ (v n : Nat) : bytesBe v (n + 1) = BitVec.ofNat 8 (v >>> (8 * n)) :: bytesBe v n := by
  simp [bytesBe, List.range_succ_eq_map, Nat.sub_sub, Nat.add_comm]

/-- `bytes_be(v, n)` is the value of the low `8n` bits of `v` (R8). -/
theorem be_bytesBe (v n : Nat) : be (bytesBe v n) = v % 2 ^ (8 * n) := by
  induction n with
  | zero => simp [bytesBe, be, Nat.mod_one]
  | succ n ih =>
    rw [bytesBe_succ, be_cons, ih, bytesBe_length, BitVec.toNat_ofNat, Nat.shiftRight_eq_div_pow, Nat.mul_succ,
      Nat.pow_add, Nat.mod_mul, Nat.add_comm]

/-! ### Quantum sequences and their values -/

/-- `m` quanta of the value `v`, least significant first. -/
def digits (m v : Nat) : List Quantum := (List.range m).map (quantumAt v)

@[simp] theorem digits_length (m v : Nat) : (digits m v).length = m := by simp [digits]

theorem digits_succ (m v : Nat) : digits (m + 1) v = quantumAt v 0 :: digits m (v >>> 5) := by
  simp [digits, List.range_succ_eq_map, quantumAt, ← Nat.shiftRight_add, Nat.mul_succ, Nat.add_comm]

theorem groupValue_cons (q : Quantum) (qs : List Quantum) : groupValue (q :: qs) = q.toNat + 2 ^ 5 * groupValue qs := by
  rw [groupValue, Nat.shiftLeft_eq, Nat.mul_comm]

theorem groupValue_digits (m v : Nat) : groupValue (digits m v) = v % 2 ^ (5 * m) := by
  induction m generalizing v with
  | zero => simp [digits, groupValue, Nat.mod_one]
  | succ m ih =>
    rw [digits_succ, groupValue_cons, ih, quantumAt, BitVec.toNat_ofNat, Nat.mul_zero, Nat.shiftRight_zero,
      Nat.shiftRight_eq_div_pow, Nat.mul_succ, Nat.add_comm (5 * m), Nat.pow_add, Nat.mod_mul]

theorem groupValue_append (G H : List Quantum) :
    groupValue (G ++ H) = groupValue G + 2 ^ (5 * G.length) * groupValue H := by
  induction G with
  | nil => simp [groupValue]
  | cons q qs ih =>
    rw [List.cons_append, groupValue_cons, groupValue_cons, ih, List.length_cons]
    ring

/-- A quantum sequence of a known length is its value. -/
theorem groupValue_inj {G H : List Quantum} (hlen : G.length = H.length) (h : groupValue G = groupValue H) : G = H := by
  induction G generalizing H with
  | nil => exact (List.length_eq_zero_iff.1 hlen.symm).symm
  | cons q qs ih =>
    obtain _ | ⟨q', qs'⟩ := H
    · exact nomatch hlen
    · rw [groupValue_cons, groupValue_cons] at h
      have hq := q.isLt
      have hq' := q'.isLt
      have hhead : q.toNat = q'.toNat := by omega
      have htail : groupValue qs = groupValue qs' := by omega
      rw [BitVec.eq_of_toNat_eq hhead, ih (Nat.succ.inj hlen) htail]

/-- The first quantum is the most significant one of the standard policy and the least significant one of the rspamd
policy (R75, R81). -/
theorem quantaBe_eq_groupValue_reverse (Q : List Quantum) : quantaBe Q = groupValue Q.reverse := by
  induction Q with
  | nil => rfl
  | cons q qs ih =>
    rw [quantaBe, ih, List.reverse_cons, groupValue_append, List.length_reverse, Nat.shiftLeft_eq, groupValue_cons]
    simp [groupValue]
    ring

theorem quantaBe_lt (Q : List Quantum) : quantaBe Q < 2 ^ (5 * Q.length) := by
  rw [quantaBe_eq_groupValue_reverse, ← Q.length_reverse]
  exact groupValue_lt _

theorem quantaBe_inj {Q Q' : List Quantum} (hlen : Q.length = Q'.length) (h : quantaBe Q = quantaBe Q') : Q = Q' := by
  rw [quantaBe_eq_groupValue_reverse, quantaBe_eq_groupValue_reverse] at h
  exact List.reverse_injective (groupValue_inj (by simpa using hlen) h)

/-! ### The rspamd block and group -/

theorem blockRsp_eq_digits (K : List Byte) : blockRsp K = digits (ceilDiv (8 * K.length) 5) (be K) := rfl

/-- The quanta of a block have room for all its bits (R80). -/
theorem groupValue_blockRsp (K : List Byte) : groupValue (blockRsp K) = be K := by
  have hroom : 8 * K.length ≤ 5 * ceilDiv (8 * K.length) 5 := by simp only [ceilDiv]; omega
  rw [blockRsp_eq_digits, groupValue_digits]
  exact Nat.mod_eq_of_lt ((be_lt K).trans_le (Nat.pow_le_pow_right (by decide) hroom))

/-- A group's bytes hold the low bits of its value (R82). -/
theorem be_groupRsp (G : List Quantum) : be (groupRsp G) = groupValue G % 2 ^ (8 * (5 * G.length / 8)) := by
  rw [groupRsp, be_bytesBe, Nat.mod_mod]

/-- The quanta of `n` bytes drop less than a byte when they are unpacked. -/
theorem unpacked_count_of_packed (n : Nat) : 5 * ceilDiv (8 * n) 5 / 8 = n := by
  simp only [ceilDiv]
  omega

/-- The lengths that an encode produces (R84). -/
theorem packed_count_of_unpacked_iff (m : Nat) : ceilDiv (8 * (5 * m / 8)) 5 = m ↔ m % 8 ∈ [0, 2, 4, 5, 7] := by
  simp only [ceilDiv, List.mem_cons, List.not_mem_nil, or_false]
  omega

/-- A group undoes a block, of any length: it has as many bytes, and the value has no higher bits to drop. -/
theorem groupRsp_blockRsp (K : List Byte) : groupRsp (blockRsp K) = K := by
  refine be_inj ?_ ?_
  · rw [groupRsp_length, blockRsp_length, unpacked_count_of_packed]
  · rw [be_groupRsp, groupValue_blockRsp, blockRsp_length, unpacked_count_of_packed, Nat.mod_eq_of_lt (be_lt K)]

/-- A block undoes a group when the group has a block's length and the bits it drops are zero. -/
theorem blockRsp_groupRsp_iff (G : List Quantum) :
    blockRsp (groupRsp G) = G ↔ G.length % 8 ∈ [0, 2, 4, 5, 7] ∧ groupValue G < 2 ^ (8 * (5 * G.length / 8)) := by
  have hlen : (blockRsp (groupRsp G)).length = ceilDiv (8 * (5 * G.length / 8)) 5 := by
    rw [blockRsp_length, groupRsp_length]
  have hvalue : groupValue (blockRsp (groupRsp G)) = groupValue G % 2 ^ (8 * (5 * G.length / 8)) := by
    rw [groupValue_blockRsp, be_groupRsp]
  rw [← packed_count_of_unpacked_iff]
  refine ⟨fun h => ?_, fun ⟨hcount, hlt⟩ => ?_⟩
  · rw [h] at hlen hvalue
    exact ⟨hlen.symm, hvalue ▸ Nat.mod_lt _ (Nat.two_pow_pos _)⟩
  · exact groupValue_inj (hlen.trans hcount) (hvalue.trans (Nat.mod_eq_of_lt hlt))

/-- Settles O47: a group of 8 quanta has the length of a block's and drops no bit. -/
theorem blockAndGroupAreInverse : Obligations.BlockAndGroupAreInverse := by
  refine ⟨fun K _ _ => groupRsp_blockRsp K, fun G hG => (blockRsp_groupRsp_iff G).2 ⟨?_, ?_⟩⟩
  · rw [hG]
    decide
  · have hlt := groupValue_lt G
    rwa [hG] at hlt ⊢

end Sys2Proof.Machine
end

section
/-! The standard policy as arithmetic (spec rules R72, R75): packing shifts the value left by the padding, unpacking
shifts it right by what is dropped. -/

namespace Sys2Proof.Machine

/-! ### The integer form of `UnpackStd` -/

/-- The bit string of a quantum sequence starts with its first quantum, and goes on with that of the rest (R75). -/
theorem unstdBit_cons (q : Quantum) (qs : List Quantum) (p : Nat) :
    unstdBit (q :: qs) p = if p < 5 then q.getLsbD (4 - p) else unstdBit qs (p - 5) := by
  split
  next h =>
    simp only [unstdBit, Nat.div_eq_of_lt h, Nat.mod_eq_of_lt h, List.getElem?_cons_zero]
  next h =>
    obtain ⟨p, rfl⟩ := Nat.exists_eq_add_of_le' (Nat.le_of_not_lt h)
    simp only [unstdBit, Nat.add_div_right p (by decide : 0 < 5), Nat.add_mod_right, Nat.add_sub_cancel,
      List.getElem?_cons_succ]

/-- The bit string of a quantum sequence is the binary expansion of its value, most significant bit first (R75). -/
theorem unstdBit_eq_quantaBe_testBit (Q : List Quantum) {p : Nat} (h : p < 5 * Q.length) :
    unstdBit Q p = (quantaBe Q).testBit (5 * Q.length - 1 - p) := by
  induction Q generalizing p with
  | nil => exact absurd h (Nat.not_lt_zero p)
  | cons q qs ih =>
    rw [List.length_cons] at h ⊢
    rw [unstdBit_cons, quantaBe, Nat.shiftLeft_eq, Nat.mul_comm, Nat.testBit_two_pow_mul_add _ (quantaBe_lt qs)]
    split
    next hp =>
      rw [if_neg (by omega), show 5 * (qs.length + 1) - 1 - p - 5 * qs.length = 4 - p by omega]
      rfl
    next hp =>
      rw [ih (by omega), if_pos (by omega),
        show 5 * qs.length - 1 - (p - 5) = 5 * (qs.length + 1) - 1 - p by omega]

/-- Bit `i` of byte `j` of `v`, counted from the low end, is bit `8j + i` of `v`. -/
theorem byteAt_getLsbD (v j : Nat) {i : Nat} (h : i < 8) :
    (BitVec.ofNat 8 (v >>> (8 * j)) : Byte).getLsbD i = v.testBit (8 * j + i) := by
  rw [BitVec.getLsbD_ofNat, decide_eq_true h, Bool.true_and, Nat.testBit_shiftRight]

theorem unpackStdInt_length (Q : List Quantum) : (unpackStdInt Q).length = 5 * Q.length / 8 := bytesBe_length _ _

/-- Bit `t` of byte `i`, counted from the front, is bit `7 - t` of the byte that R75 reads there. -/
theorem unstdBit_eq_byte_getLsbD (Q : List Quantum) {i t : Nat} (hi : i < 5 * Q.length / 8) (ht : t < 8) :
    unstdBit Q (8 * i + t) =
      (BitVec.ofNat 8 ((quantaBe Q >>> (5 * Q.length - 8 * (5 * Q.length / 8))) >>> (8 * (5 * Q.length / 8 - 1 - i))) :
        Byte).getLsbD (7 - t) := by
  rw [byteAt_getLsbD _ _ (by omega), Nat.testBit_shiftRight, unstdBit_eq_quantaBe_testBit Q (by omega)]
  congr 1
  omega

/-- A byte is put together from eight bits that are its own, most significant first. -/
theorem byteOfBits_eq {f : Nat → Bool} {b : Byte} (h : ∀ t < 8, f t = b.getLsbD (7 - t)) :
    byteOfBits (f 0) (f 1) (f 2) (f 3) (f 4) (f 5) (f 6) (f 7) = b := by
  rw [h 0 (by decide), h 1 (by decide), h 2 (by decide), h 3 (by decide), h 4 (by decide), h 5 (by decide),
    h 6 (by decide), h 7 (by decide)]
  exact byteOfBits_getLsbD b

/-- Settles O41: byte for byte, the eight bits of the bit string are those of the value's byte. -/
theorem unpackStdHasIntegerForm : Obligations.UnpackStdHasIntegerForm := by
  intro Q
  refine List.ext_getElem ((unpackStd_length Q).trans (unpackStdInt_length Q).symm) fun i hi hi' => ?_
  have hi_lt : i < 5 * Q.length / 8 := unpackStd_length Q ▸ hi
  calc (unpackStd Q)[i]
    _ = byteOfBits _ _ _ _ _ _ _ _ := unpackStd_getElem hi
    _ = _ := byteOfBits_eq (f := fun t => unstdBit Q (8 * i + t)) fun _ ht => unstdBit_eq_byte_getLsbD Q hi_lt ht
    _ = (unpackStdInt Q)[i] := (bytesBe_getElem hi').symm

/-! ### The two functions on values -/

/-- Digits read from the most significant one on. -/
theorem digits_reverse (m v : Nat) : (List.range m).map (fun k => quantumAt v (m - 1 - k)) = (digits m v).reverse :=
  List.ext_getElem (by simp) fun _ _ _ => by simp [digits]

theorem packStd_eq_digits (B : List Byte) :
    packStd B = (digits (ceilDiv (8 * B.length) 5) (be B <<< (5 * ceilDiv (8 * B.length) 5 - 8 * B.length))).reverse :=
  (packStdHasIntegerForm B).trans (digits_reverse _ _)

/-- Packing pads the value with zeros at its low end (R72). -/
theorem quantaBe_packStd (B : List Byte) :
    quantaBe (packStd B) = be B <<< (5 * ceilDiv (8 * B.length) 5 - 8 * B.length) := by
  have hpad : 8 * B.length + (5 * ceilDiv (8 * B.length) 5 - 8 * B.length) = 5 * ceilDiv (8 * B.length) 5 :=
    Nat.add_sub_of_le (by simp only [ceilDiv]; omega)
  rw [packStd_eq_digits, quantaBe_eq_groupValue_reverse, List.reverse_reverse, groupValue_digits]
  refine Nat.mod_eq_of_lt ?_
  calc be B <<< (5 * ceilDiv (8 * B.length) 5 - 8 * B.length)
    _ = be B * 2 ^ (5 * ceilDiv (8 * B.length) 5 - 8 * B.length) := Nat.shiftLeft_eq _ _
    _ < 2 ^ (8 * B.length) * 2 ^ (5 * ceilDiv (8 * B.length) 5 - 8 * B.length) :=
      Nat.mul_lt_mul_of_pos_right (be_lt B) (Nat.two_pow_pos _)
    _ = 2 ^ (5 * ceilDiv (8 * B.length) 5) := by rw [← Nat.pow_add, hpad]

/-- Unpacking drops the low bits of the value that fill no byte (R75). -/
theorem be_unpackStd (Q : List Quantum) :
    be (unpackStd Q) = quantaBe Q >>> (5 * Q.length - 8 * (5 * Q.length / 8)) := by
  rw [unpackStdHasIntegerForm, unpackStdInt, be_bytesBe]
  refine Nat.mod_eq_of_lt ?_
  rw [Nat.shiftRight_eq_div_pow, Nat.div_lt_iff_lt_mul (Nat.two_pow_pos _), ← Nat.pow_add,
    Nat.add_sub_of_le (Nat.mul_div_le _ _)]
  exact quantaBe_lt Q

/-- Settles O44: what unpacking drops is what packing padded. -/
theorem standardRoundTrip : Obligations.StandardRoundTrip := by
  intro B
  refine be_inj ?_ ?_
  · rw [unpackStd_length, packStd_length, unpacked_count_of_packed]
  · rw [be_unpackStd, quantaBe_packStd, packStd_length, unpacked_count_of_packed, Nat.shiftLeft_shiftRight]

/-- Packing undoes unpacking when the sequence has a packed one's length and the bits dropped are zero. -/
theorem packStd_unpackStd_iff (Q : List Quantum) :
    packStd (unpackStd Q) = Q ↔
      Q.length % 8 ∈ [0, 2, 4, 5, 7] ∧ 2 ^ (5 * Q.length - 8 * (5 * Q.length / 8)) ∣ quantaBe Q := by
  have hlen : (packStd (unpackStd Q)).length = ceilDiv (8 * (5 * Q.length / 8)) 5 := by
    rw [packStd_length, unpackStd_length]
  rw [← packed_count_of_unpacked_iff]
  have hvalue (hcount : ceilDiv (8 * (5 * Q.length / 8)) 5 = Q.length) : quantaBe (packStd (unpackStd Q)) =
      quantaBe Q / 2 ^ (5 * Q.length - 8 * (5 * Q.length / 8)) * 2 ^ (5 * Q.length - 8 * (5 * Q.length / 8)) := by
    rw [quantaBe_packStd, be_unpackStd, unpackStd_length, hcount, Nat.shiftLeft_eq, Nat.shiftRight_eq_div_pow]
  refine ⟨fun h => ?_, fun ⟨hcount, hdvd⟩ => ?_⟩
  · have hcount : ceilDiv (8 * (5 * Q.length / 8)) 5 = Q.length := hlen.symm.trans (congrArg List.length h)
    exact ⟨hcount, Dvd.intro_left _ ((hvalue hcount).symm.trans (congrArg quantaBe h))⟩
  · exact quantaBe_inj (hlen.trans hcount) ((hvalue hcount).trans (Nat.div_mul_cancel hdvd))

end Sys2Proof.Machine
end

section
/-! The rspamd policy block by block (spec rules R77 to R84), and what both policies share: which quantum sequences
packing gives back, and the bits it pads with. -/

namespace Sys2Proof.Machine

/-! ### Whole parts in front -/

/-- Induction over a sequence cut from the front into parts of `n`: a rest shorter than a part, and a whole part before
a sequence for which the claim holds. -/
theorem parts_induction {α : Type} {P : List α → Prop} (n : Nat) (hn : 0 < n) (hshort : ∀ l, l.length < n → P l)
    (hpart : ∀ K l, K.length = n → P l → P (K ++ l)) (l : List α) : P l := by
  induction hlen : l.length using Nat.strong_induction_on generalizing l with
  | _ k ih =>
    rcases Nat.lt_or_ge l.length n with h | h
    · exact hshort l h
    · rw [← List.take_append_drop n l]
      exact hpart _ _ (List.length_take_of_le h) (ih (k - n) (by omega) _ (by rw [List.length_drop, hlen]))

theorem packRsp_append {K : List Byte} (hK : K.length = 5) (B : List Byte) :
    packRsp (K ++ B) = blockRsp K ++ packRsp B := by
  have hne : K ++ B ≠ [] := List.append_ne_nil_of_left_ne_nil (List.ne_nil_of_length_eq_add_one hK) B
  rw [packRsp_cons hne, List.take_left' hK, List.drop_left' hK]

theorem packRsp_of_short {K : List Byte} (hK : K.length ≤ 5) : packRsp K = blockRsp K := by
  rcases eq_or_ne K [] with rfl | hne
  · rfl
  · rw [packRsp_cons hne, List.take_of_length_le hK, List.drop_of_length_le hK, packRsp_nil, List.append_nil]

theorem unpackRsp_append {G : List Quantum} (hG : G.length = 8) (Q : List Quantum) :
    unpackRsp (G ++ Q) = groupRsp G ++ unpackRsp Q := by
  have hne : G ++ Q ≠ [] := List.append_ne_nil_of_left_ne_nil (List.ne_nil_of_length_eq_add_one hG) Q
  rw [unpackRsp_cons hne, List.take_left' hG, List.drop_left' hG]

theorem unpackRsp_of_short {G : List Quantum} (hG : G.length ≤ 8) : unpackRsp G = groupRsp G := by
  rcases eq_or_ne G [] with rfl | hne
  · rfl
  · rw [unpackRsp_cons hne, List.take_of_length_le hG, List.drop_of_length_le hG, unpackRsp_nil, List.append_nil]

/-- Full groups in front are unpacked apart from the rest. -/
theorem unpackRsp_append_of_full {F : List Quantum} (hF : F.length % 8 = 0) (G : List Quantum) :
    unpackRsp (F ++ G) = unpackRsp F ++ unpackRsp G := by
  induction F using parts_induction 8 (by decide) with
  | hshort F hlt =>
    obtain rfl : F = [] := List.length_eq_zero_iff.1 (by omega)
    rfl
  | hpart K F hK ih =>
    rw [List.length_append, hK] at hF
    rw [List.append_assoc, unpackRsp_append hK, unpackRsp_append hK, ih (by omega), List.append_assoc]

/-- Settles O45: block by block, a full one as 8 quanta and a short one as at most 7. -/
theorem rspamdRoundTrip : Obligations.RspamdRoundTrip := by
  intro B
  induction B using parts_induction 5 (by decide) with
  | hshort K hK =>
    have hlen : (blockRsp K).length ≤ 8 := by
      rw [blockRsp_length, ceilDiv]
      omega
    rw [packRsp_of_short hK.le, unpackRsp_of_short hlen, groupRsp_blockRsp]
  | hpart K B hK ih =>
    have hlen : (blockRsp K).length = 8 := by rw [blockRsp_length, hK, ceilDiv]
    rw [packRsp_append hK, unpackRsp_append hlen, groupRsp_blockRsp, ih]

/-! ### The quantum sequences that packing gives back -/

/-- Under the standard policy the bits dropped are the low bits of the last quantum. -/
theorem two_pow_dvd_quantaBe_append_singleton (Q : List Quantum) (q : Quantum) {drop : Nat} (h : drop ≤ 5) :
    2 ^ drop ∣ quantaBe (Q ++ [q]) ↔ q.toNat % 2 ^ drop = 0 := by
  rw [quantaBe_eq_groupValue_reverse, List.reverse_append, List.reverse_singleton, List.singleton_append,
    groupValue_cons, Nat.dvd_add_left (Dvd.dvd.mul_right (Nat.pow_dvd_pow 2 h) _), Nat.dvd_iff_mod_eq_zero]

/-- Under the rspamd policy the bits dropped are the high bits of the last quantum. -/
theorem groupValue_append_singleton_lt (Q : List Quantum) (q : Quantum) (k : Nat) :
    groupValue (Q ++ [q]) < 2 ^ (5 * Q.length + k) ↔ q.toNat < 2 ^ k := by
  have hq : groupValue (Q ++ [q]) / 2 ^ (5 * Q.length) = q.toNat := by
    rw [groupValue_append, Nat.add_mul_div_left _ _ (Nat.two_pow_pos _), Nat.div_eq_of_lt (groupValue_lt Q)]
    simp [groupValue]
  rw [← hq, Nat.div_lt_iff_lt_mul (Nat.two_pow_pos _), ← Nat.pow_add, Nat.add_comm]

/-- At the lengths that an encode produces less than a quantum is dropped. -/
theorem dropped_le {m : Nat} (h : m % 8 ∈ [0, 2, 4, 5, 7]) : 5 * m - 8 * (5 * m / 8) ≤ 4 := by
  simp only [List.mem_cons, List.not_mem_nil, or_false] at h
  omega

theorem packStd_unpackStd_append_singleton_iff (Q : List Quantum) (q : Quantum) :
    packStd (unpackStd (Q ++ [q])) = Q ++ [q] ↔
      (Q.length + 1) % 8 ∈ [0, 2, 4, 5, 7] ∧
        q.toNat % 2 ^ (5 * (Q.length + 1) - 8 * (5 * (Q.length + 1) / 8)) = 0 := by
  rw [packStd_unpackStd_iff, List.length_append, List.length_singleton]
  refine and_congr_right fun h => two_pow_dvd_quantaBe_append_singleton Q q ?_
  exact (dropped_le h).trans (by decide)

theorem packRsp_unpackRsp_append_singleton_iff (Q : List Quantum) (q : Quantum) :
    packRsp (unpackRsp (Q ++ [q])) = Q ++ [q] ↔
      (Q.length + 1) % 8 ∈ [0, 2, 4, 5, 7] ∧
        q.toNat < 2 ^ (5 - (5 * (Q.length + 1) - 8 * (5 * (Q.length + 1) / 8))) := by
  induction Q using parts_induction 8 (by decide) with
  | hshort Q hQ =>
    have hlen : (Q ++ [q]).length = Q.length + 1 := by simp
    have hbytes : (groupRsp (Q ++ [q])).length ≤ 5 := by
      rw [groupRsp_length, hlen]
      omega
    rw [unpackRsp_of_short (by omega), packRsp_of_short hbytes, blockRsp_groupRsp_iff, hlen]
    refine and_congr_right fun h => ?_
    have hkept : 8 * (5 * (Q.length + 1) / 8) =
        5 * Q.length + (5 - (5 * (Q.length + 1) - 8 * (5 * (Q.length + 1) / 8))) := by
      have hdrop := dropped_le h
      omega
    rw [hkept, groupValue_append_singleton_lt, ← hkept]
  | hpart G Q hG ih =>
    have hgroup : blockRsp (groupRsp G) = G := blockAndGroupAreInverse.2 G hG
    have hbytes : (groupRsp G).length = 5 := by rw [groupRsp_length, hG]
    have hres : (8 + Q.length + 1) % 8 = (Q.length + 1) % 8 := by omega
    have hdrop : 5 * (8 + Q.length + 1) - 8 * (5 * (8 + Q.length + 1) / 8) =
        5 * (Q.length + 1) - 8 * (5 * (Q.length + 1) / 8) := by omega
    rw [List.append_assoc, unpackRsp_append hG, packRsp_append hbytes, hgroup, List.append_cancel_left_eq, ih,
      List.length_append, hG, hres, hdrop]

/-- Settles O46: the two equivalences, a sequence of one quantum, which unpacks to nothing, and a byte of ones. -/
theorem canonicalQuantaRoundTrip : Obligations.CanonicalQuantaRoundTrip :=
  ⟨fun Q q => ⟨packStd_unpackStd_append_singleton_iff Q q, packRsp_unpackRsp_append_singleton_iff Q q⟩,
    ⟨[0], by decide⟩, ⟨[0xFF#8], by decide⟩⟩

/-! ### Padding -/

theorem unpackStd_congr {Q Q' : List Quantum} (hlen : Q'.length = Q.length)
    (h : quantaBe Q >>> (5 * Q.length - 8 * (5 * Q.length / 8)) =
      quantaBe Q' >>> (5 * Q.length - 8 * (5 * Q.length / 8))) : unpackStd Q = unpackStd Q' := by
  rw [unpackStdHasIntegerForm, unpackStdHasIntegerForm, unpackStdInt, unpackStdInt, hlen, h]

theorem groupRsp_congr {G G' : List Quantum} (hlen : G'.length = G.length)
    (h : groupValue G % 2 ^ (8 * (5 * G.length / 8)) = groupValue G' % 2 ^ (8 * (5 * G.length / 8))) :
    groupRsp G = groupRsp G' := by
  rw [groupRsp, groupRsp, hlen, h]

/-- Unpacking undoes packing, under either policy (R84). -/
theorem unpack_pack (p : Policy) (B : List Byte) : unpack p (pack p B) = B := by
  cases p with
  | standard => exact standardRoundTrip B
  | rspamd => exact rspamdRoundTrip B

/-- What packing gives is a sequence that packing gives back, and unpacking it drops what packing padded. -/
theorem pack_getLast {p : Policy} {B : List Byte} {q : Quantum} (h : (pack p B).getLast? = some q) :
    ∃ Q, pack p B = Q ++ [q] ∧ pack p (unpack p (Q ++ [q])) = Q ++ [q] ∧ 5 * (Q.length + 1) / 8 = B.length := by
  obtain ⟨Q, hQ⟩ := List.getLast?_eq_some_iff.1 h
  have hlen : Q.length + 1 = ceilDiv (8 * B.length) 5 := by
    rw [← pack_length p B, hQ, List.length_append, List.length_singleton]
  refine ⟨Q, hQ, ?_, by rw [hlen, unpacked_count_of_packed]⟩
  rw [← hQ, unpack_pack]

/-- Settles O48: the last quantum of a packed sequence is that of one that packing gives back, whose dropped bits are
zero; and each unpacking is by its definition one of the bits it keeps. -/
theorem paddingIsZeroAndIgnored : Obligations.PaddingIsZeroAndIgnored := by
  refine ⟨fun B q hq => ?_, fun B q hq => ?_, fun _ _ => unpackStd_congr, fun F G G' hF hG hlen h => ?_⟩
  · obtain ⟨Q, hQ, hback, hbytes⟩ := pack_getLast (p := .standard) hq
    rw [show packStd B = Q ++ [q] from hQ, ← hbytes, List.length_append, List.length_singleton]
    exact ((packStd_unpackStd_append_singleton_iff Q q).1 hback).2
  · obtain ⟨Q, hQ, hback, hbytes⟩ := pack_getLast (p := .rspamd) hq
    rw [show packRsp B = Q ++ [q] from hQ, ← hbytes, List.length_append, List.length_singleton]
    exact ((packRsp_unpackRsp_append_singleton_iff Q q).1 hback).2
  · have hG_short : G.length ≤ 8 := hG.trans (by decide)
    have hG'_short : G'.length ≤ 8 := hlen.trans_le hG_short
    rw [unpackRsp_append_of_full hF, unpackRsp_append_of_full hF, unpackRsp_of_short hG_short,
      unpackRsp_of_short hG'_short, groupRsp_congr hlen h]

/-! ### The two policies on whole blocks -/

/-- A full block needs no padding, so its digits are the same, in the other order (R35). -/
theorem blockRsp_eq_reverse_packStd {K : List Byte} (hK : K.length = 5) : blockRsp K = (packStd K).reverse := by
  rw [packStd_eq_digits, List.reverse_reverse, blockRsp_eq_digits, hK]
  rfl

theorem part_length {α : Type} {n t : Nat} {l : List α} (h : n * t + n ≤ l.length) : (part n l t).length = n := by
  rw [part, List.length_take, List.length_drop]
  omega

/-- The bit string of one block is that of the message from the block's first byte on. -/
theorem stdBit_part (B : List Byte) (t : Nat) {p : Nat} (hp : p < 40) :
    stdBit (part 5 B t) p = stdBit B (40 * t + p) := by
  have hindex : (40 * t + p) / 8 = 5 * t + p / 8 := by omega
  have hbit : (40 * t + p) % 8 = p % 8 := by omega
  have hin : p / 8 < 5 := by omega
  simp only [stdBit, part, List.getElem?_take, List.getElem?_drop, hindex, hbit, if_pos hin]

/-- The standard quanta of a whole block are a run of those of the message. -/
theorem packStd_part {B : List Byte} {t : Nat} (ht : 5 * t + 5 ≤ B.length) :
    packStd (part 5 B t) = part 8 (packStd B) t := by
  have hlen : (packStd (part 5 B t)).length = 8 := by rw [packStd_length, part_length ht, ceilDiv]
  have hrun : (part 8 (packStd B) t).length = 8 := part_length (by rw [packStd_length, ceilDiv]; omega)
  refine List.ext_getElem (hlen.trans hrun.symm) fun j hj hj' => ?_
  have hbit (i : Nat) (hi : i < 5) : stdBit (part 5 B t) (5 * j + i) = stdBit B (5 * (8 * t + j) + i) := by
    rw [stdBit_part B t (by omega)]
    congr 1
    omega
  have hbit_zero : stdBit (part 5 B t) (5 * j) = stdBit B (5 * (8 * t + j)) := hbit 0 (by decide)
  have hentry : (part 8 (packStd B) t)[j] = (packStd B)[8 * t + j]'(by simp [part] at hj'; omega) := by simp [part]
  rw [hentry, packStd_getElem hj, packStd_getElem, hbit_zero, hbit 1 (by decide), hbit 2 (by decide),
    hbit 3 (by decide), hbit 4 (by decide)]

/-- Settles O49: block by block, each run of 8 standard quanta being the quanta of one block. -/
theorem policiesReverseEachBlock : Obligations.PoliciesReverseEachBlock := by
  intro B hB
  have hblocks : ceilDiv B.length 5 = B.length / 5 := by simp only [ceilDiv]; omega
  rw [packRsp, hblocks]
  refine List.flatMap_congr fun t ht => ?_
  have hblock : 5 * t + 5 ≤ B.length := by
    have hlt := List.mem_range.1 ht
    omega
  rw [blockRsp_eq_reverse_packStd (part_length hblock), packStd_part hblock, part]

end Sys2Proof.Machine
end

section
/-! A decode undoes an encode, on another block and on the same one (spec rules R92, R98, R140). -/

namespace Sys2Proof.Machine

variable {s t u : State}

/-- A state whose input message is an encoded one decodes it, under the same policy, to the original bytes. -/
theorem runDecode_encodeMessage (p : Policy) {B : List Byte} (hu : u.ilen ≤ u.cfg.ibufDepth)
    (h : u.ibuf = encodeMessage p B) : runDecode p u = .next ((u.putResult B).respond .ok 0x00#8) := by
  have hv : validate u.ibuf = some (pack p B) := h ▸ validate_map_lutFwd (pack p B)
  rw [runDecode_next_of_valid p hu hv, unpack_pack]

/-- Settles O58: the output message of an encode is the encoded message, whatever block decodes it. -/
theorem decodeUndoesEncode : Obligations.DecodeUndoesEncode := by
  intro s t u _ hu hmsg
  have hdecode (p : Policy) (h : runEncode p s = .next t) :
      runDecode p u = .next ((u.putResult s.ibuf).respond .ok 0x00#8) :=
    runDecode_encodeMessage p hu.ilen (hmsg.trans (runEncode_obuf h))
  exact ⟨hdecode .standard, hdecode .rspamd⟩

/-! ### On one block -/

/-- `floor(5 D / 8)` bytes are the most whose encoded message has at most `D` symbols (R140). -/
theorem encodeMessage_length_le_iff (p : Policy) (B : List Byte) {depth : Nat} :
    (encodeMessage p B).length ≤ depth ↔ B.length ≤ 5 * depth / 8 := by
  rw [encodeMessage_length, ceilDiv]
  omega

/-- A message that fits, pushed to an idle block with no input, then one command that decodes it. -/
theorem execAll_pushb_decode {j : Instr} (p : Policy) {B : List Byte} (hj : exec j = runDecode p)
    (hidle : u.pending = none) (hempty : u.ibuf = []) (hfit : (encodeMessage p B).length ≤ u.cfg.ibufDepth) :
    execAll (pushb (encodeMessage p B) ++ [j]) u =
      some (List.replicate ((encodeMessage p B).length + 1) 0x000#10, u.putResult B) := by
  have hpushes := pushesBuildTheMessage (encodeMessage p B) u hidle (by rw [State.ilen, hempty]; simpa using hfit)
  rw [hempty, List.nil_append] at hpushes
  have hdecode := hj ▸ runDecode_encodeMessage (u := { u with ibuf := encodeMessage p B }) p hfit rfl
  rw [execAll_append hpushes, execAll_cons_respond hdecode hidle, List.replicate_succ']
  rfl

/-- The round trip under one policy: encode, push the output message back, decode. -/
theorem roundTrip_of_policy {j : Instr} (p : Policy) (hj : exec j = runDecode p) (h : runEncode p s = .next t) :
    (s.ilen ≤ 5 * s.cfg.ibufDepth / 8 →
      execAll (pushb t.obuf ++ [j]) { t with pending := none } =
        some (List.replicate (t.olen + 1) 0x000#10,
          { s with ibuf := [], obuf := s.ibuf, optr := 0, err := false, pending := none })) ∧
    (5 * s.cfg.ibufDepth / 8 < s.ilen →
      ∃ rs u, execAll (pushb t.obuf) { t with pending := none } = some (rs, u) ∧ rs.getLast? = some 0x200#10) := by
  obtain ⟨_, rfl⟩ := runEncode_eq_next.1 h
  refine ⟨fun hfit => ?_, fun hover => ?_⟩
  · exact execAll_pushb_decode p hj rfl rfl ((encodeMessage_length_le_iff p s.ibuf).2 hfit)
  · have hlong : s.cfg.ibufDepth < (encodeMessage p s.ibuf).length := by
      rw [← Nat.not_le, encodeMessage_length_le_iff, Nat.not_le]
      exact hover
    exact execAll_pushb_of_overflow rfl (Nat.zero_le _) (hlong.trans_eq (Nat.zero_add _).symm)

/-- Settles O59: both pairs of commands are the encode and the decode of one policy. -/
theorem roundTripOnOneInstance : Obligations.RoundTripOnOneInstance := by
  intro i j s t hij _ h
  rcases hij with ⟨rfl, rfl⟩ | ⟨rfl, rfl⟩
  · exact roundTrip_of_policy .standard rfl h
  · exact roundTrip_of_policy .rspamd rfl h

end Sys2Proof.Machine
end
